-- ==== Sys2Proof/Word.lean ====
section
/-! DEFINITION. The words of OREGON21-ENC: message bytes, and the fields of a command word (R9, R45). -/

namespace Sys2Proof

/-- One message byte (R9, R15). -/
abbrev Byte := BitVec 8

/-- A 19-bit command word, `op` in bits 18:16 and `data` in bits 15:0 (R45). -/
abbrev CmdWord := BitVec 19

/-- The opcode field, as presented on `cmd_op` (R45, R48). -/
abbrev Opcode := BitVec 3

/-- The operand field, as presented on `cmd_data` (R45, R49). -/
abbrev Operand := BitVec 16

/-- The read-back address, as presented on `rd_addr` (R23, R34). -/
abbrev RdAddr := BitVec 4

end Sys2Proof
end

