-- ==== Sys2Proof/Config.lean ====
section
/-! DEFINITION. The implementation parameters of R7. Each literal the source fixes is one named constant (R8); the OPEN
parameters are the fields of `Params`, and the block's own choice of them is one constant without a body. -/

namespace Sys2Proof.Config

/-- MSG_LEN (R7): bytes in the message buffer. -/
abbrev msgLen : Nat := 9

/-- CHK_COUNT (R7): bytes summed by the checksum. -/
abbrev chkCount : Nat := 8

/-- CHK_OFFSET (R7, R73): subtracted from the nibble sum. -/
def chkOffset : Int := 10

/-- BATT_LOW_CODE (R7, R62): byte 4 for a low battery. -/
def battLowCode : Byte := 0x0C

/-- SIGN_NEG_CODE (R7, R63): byte 6 for a negative temperature. -/
def signNegCode : Byte := 0x08

/-- PREAMBLE (R7, R80). -/
def preamble : List Byte := [0xFF, 0xFF]

/-- POSTAMBLE (R7, R81). -/
def postamble : List Byte := [0x00]

/-- REPEAT (R7): frames a SEND transmits. -/
def frameRepeat : Nat := 2

/-- GAP_UNITS (R7, R93): the inter-message low period in TIME units. -/
def gapUnits : Nat := 16

/-- TIME_US (R7, R78): nominal microseconds in one TIME unit (log 9). -/
def timeUs : Nat := 512

/-- TEMP_W (R7, R50): width of the temperature operand. -/
abbrev tempW : Nat := 16

/-- Symbols in a frame, the bound R20 and R83 give `sym`. -/
abbrev frameSymbols : Nat := 96

/-- The OPEN parameters of R7 (D12, D14). TIME_CYCLES is held as its excess over 1, since it is an integer of at
least 1. -/
structure Params where
  /-- TIME_CYCLES − 1. -/
  extraCycles : Nat
  /-- RESET_TYPE. -/
  resetType : BitVec 16
  /-- RESET_CHANNEL. -/
  resetChannel : Byte
  /-- RESET_ID. -/
  resetId : Byte
deriving DecidableEq, Repr, Inhabited

/-- TIME_CYCLES (R7): clock cycles in one TIME unit. -/
def Params.timeCycles (P : Params) : Nat := P.extraCycles + 1

/-- The parameters of the block `step` runs: uninterpreted, so that a claim holds for every choice (D12, D14, log 3). -/
opaque params : Params

end Sys2Proof.Config
end

