-- ==== Sys2Proof/Machine/Memory.lean ====
section
/-! DEFINITION. The message buffer, the block's one address space (R15, R32): a list of cells in canonical form. -/

namespace Sys2Proof.Machine

/-- A buffer address, 0 to 8 (R32). No other address exists, so none can be named. -/
abbrev Addr := Fin Config.msgLen

/-- The message buffer: addresses strictly rising, no cell equal to what an unlisted address reads as (log 8). -/
abbrev Memory := List Host.Cell

/-- What an unlisted address reads as: 0x00, the reset value of bytes 4 to 8 (R30; log 8). -/
def Memory.unlisted : Byte := 0x00

/-- The value of a byte of the buffer, by its address as a number. -/
def Memory.lookup : Memory → Nat → Byte
  | [], _ => Memory.unlisted
  | c :: rest, a => if c.1 = a then c.2 else Memory.lookup rest a

/-- `buf[a]` (R10). It has no side effect (R39). -/
def Memory.read (m : Memory) (a : Addr) : Byte := m.lookup a.val

/-- The cells at other addresses. -/
def Memory.erase (m : Memory) (a : Nat) : Memory := m.filter (fun c => c.1 ≠ a)

/-- A cell put before the first cell of a higher address. -/
def Memory.insertCell : Memory → Nat → Byte → Memory
  | [], a, v => [(a, v)]
  | c :: rest, a, v => if a < c.1 then (a, v) :: c :: rest else c :: Memory.insertCell rest a v

/-- `buf[a] <- v` (R10), keeping the canonical form. -/
def Memory.write (m : Memory) (a : Addr) (v : Byte) : Memory :=
  if v = Memory.unlisted then m.erase a.val else Memory.insertCell (m.erase a.val) a.val v

/-- The canonical form: addresses strictly rising from `lo`, below the buffer's length, and no cell that need not be
listed. -/
def Memory.wfFrom : Nat → Memory → Bool
  | _, [] => true
  | lo, c :: rest =>
    decide (lo ≤ c.1) && decide (c.1 < Config.msgLen) && decide (c.2 ≠ Memory.unlisted) && Memory.wfFrom (c.1 + 1) rest

/-- The buffer is in canonical form (log 8). -/
def Memory.wf (m : Memory) : Bool := Memory.wfFrom 0 m

/-- The buffer's bytes in index order (R15, R36). -/
def Memory.bytes (m : Memory) : List Byte := (List.finRange Config.msgLen).map m.read

/-- The buffer after reset (R30): the type's two bytes, the channel and the id. Bytes 4 to 8 are 0x00, unlisted. -/
def Memory.afterReset (P : Config.Params) : Memory :=
  Memory.write (Memory.write (Memory.write (Memory.write [] 3 P.resetId) 2 P.resetChannel) 1
    (P.resetType.extractLsb' 0 8)) 0 (P.resetType.extractLsb' 8 8)

end Sys2Proof.Machine
end

