-- ==== Sys2Proof/Syntax.lean ====
section
/-! DEFINITION. The eight commands of spec/opcode_table.json, and the source form of a command program (R54 to R56). -/

namespace Sys2Proof

/-- The commands of the opcode map (R48), each with the operand bits it uses (R49). Ignored operand bits are no part of a
command (R52, log 10). -/
inductive Instr where
  /-- SETTYPE, operand data[15:0]. -/
  | setType (t : Operand)
  /-- SETCHANNEL, operand data[7:0]. -/
  | setChannel (c : Byte)
  /-- SETID, operand data[7:0]. -/
  | setId (i : Byte)
  /-- SETBATTERY, operand data[7:0], the level. -/
  | setBattery (l : Byte)
  /-- SETTEMP, operand data[15:0], tenths of a degree in two's complement (R50). -/
  | setTemp (x : Operand)
  /-- SETHUMIDITY, operand data[7:0], unsigned (R51). -/
  | setHumidity (h : Byte)
  /-- CHECKSUM, no operand. -/
  | checksum
  /-- SEND, no operand. -/
  | send
deriving DecidableEq, Repr

/-- A SETTEMP literal `[-]D[.F]` (R55) as read: the value of D and the fractional digits given, none when the point is
absent. -/
structure TempLit where
  neg : Bool
  whole : Nat
  frac : List Nat
deriving DecidableEq, Repr

/-- One line of a command program after it is read (R54), pseudo-commands included (R56). Operands are the numbers
written, not yet checked against their range. -/
inductive SourceCmd where
  | setType (t : Nat)
  | setChannel (c : Nat)
  | setId (i : Nat)
  | setBattery (l : Nat)
  | setTemp (x : TempLit)
  | setHumidity (h : Nat)
  | checksum
  | send
  | init (t c i : Nat)
  | reading (l : Nat) (x : TempLit) (h : Nat)
  | report (l : Nat) (x : TempLit) (h : Nat)
deriving DecidableEq, Repr

/-- Why the assembler refuses a line (R54, R55). -/
inductive AsmReason where
  /-- The line's first word names no command (R54). -/
  | unknownMnemonic
  /-- Fewer operands than the command takes (R54). -/
  | missingOperand
  /-- More operands than the command takes (R54). -/
  | extraOperand
  /-- An operand that is no literal of the grammar (R54, R55; log 11). -/
  | malformedOperand
  /-- An operand outside its range (R54, R55). -/
  | operandOutOfRange
  /-- A temperature literal with two or more fractional digits (R55). -/
  | tooManyFractionDigits
deriving DecidableEq, Repr

/-- A refusal of the assembler: the line, counted from 1, and the reason (R54). -/
structure AsmError where
  line : Nat
  reason : AsmReason
deriving DecidableEq, Repr

end Sys2Proof
end

