-- ==== Sys2Proof/WellFormed.lean ====
section
/-! DEFINITION. The static checks: which source commands the assembler admits (R54, R55), and that every command is
admitted by the block (R52). -/

namespace Sys2Proof

/-- Every command is well formed: no command word is illegal and no operand value is refused (R52, R113). An operand's
width is in its type. -/
def Instr.wf : Instr → Bool
  | .setType _ => true
  | .setChannel _ => true
  | .setId _ => true
  | .setBattery _ => true
  | .setTemp _ => true
  | .setHumidity _ => true
  | .checksum => true
  | .send => true

/-- The value of a temperature literal in tenths: ±(D × 10 + F), F = 0 when it is absent (R55). -/
def TempLit.tenths (x : TempLit) : Int :=
  let m : Int := (x.whole * 10 + x.frac.headD 0 : Nat)
  if x.neg then -m else m

/-- The refusals of R55, with a fractional digit held to 0..9. -/
def TempLit.problem (x : TempLit) : Option AsmReason :=
  if 2 ≤ x.frac.length then some .tooManyFractionDigits
  else if 9 < x.frac.headD 0 then some .malformedOperand
  else if -(2 : Int) ^ (Config.tempW - 1) ≤ x.tenths ∧ x.tenths < (2 : Int) ^ (Config.tempW - 1) then none
  else some .operandOutOfRange

/-- An unsigned operand against the width of its range (R54). -/
def operandProblem (bits n : Nat) : Option AsmReason :=
  if n < 2 ^ bits then none else some .operandOutOfRange

/-- The first refusal among an operand list, in the order written. -/
def firstProblem : List (Option AsmReason) → Option AsmReason
  | [] => none
  | some r :: _ => some r
  | none :: rest => firstProblem rest

/-- Why the assembler refuses a source command, by the operand ranges of R54 and R55. A pseudo-command has the ranges of
the commands it expands to (R56). -/
def SourceCmd.problem : SourceCmd → Option AsmReason
  | .setType t => operandProblem 16 t
  | .setChannel c => operandProblem 8 c
  | .setId i => operandProblem 8 i
  | .setBattery l => operandProblem 8 l
  | .setTemp x => x.problem
  | .setHumidity h => operandProblem 8 h
  | .checksum => none
  | .send => none
  | .init t c i => firstProblem [operandProblem 16 t, operandProblem 8 c, operandProblem 8 i]
  | .reading l x h => firstProblem [operandProblem 8 l, x.problem, operandProblem 8 h]
  | .report l x h => firstProblem [operandProblem 8 l, x.problem, operandProblem 8 h]

/-- The source commands the assembler admits. -/
def SourceCmd.wf (c : SourceCmd) : Bool := c.problem.isNone

end Sys2Proof
end

