-- ==== Sys2Proof/Decode.lean ====
section
/-! DEFINITION. Command words to commands, total (R45, R48, R49, R52), and the encoder from the same tables (R48, R54). -/

namespace Sys2Proof

/-- `op`, bits 18:16 of a command word (R45). -/
def CmdWord.op (w : CmdWord) : Opcode := w.extractLsb' 16 3

/-- `data`, bits 15:0 of a command word (R45). -/
def CmdWord.data (w : CmdWord) : Operand := w.extractLsb' 0 16

/-- The word `{op, data}` (R45). -/
def CmdWord.of (op : Opcode) (data : Operand) : CmdWord := op ++ data

/-- data[7:0], the operand of the one-byte commands (R49). -/
def operandByte (data : Operand) : Byte := data.extractLsb' 0 8

/-- The command that `op` names, with its operand taken from `data` (R48, R49). -/
def decodeFields (op : Opcode) (data : Operand) : Instr :=
  match op.toFin with
  | 0 => .setType data
  | 1 => .setChannel (operandByte data)
  | 2 => .setId (operandByte data)
  | 3 => .setBattery (operandByte data)
  | 4 => .setTemp data
  | 5 => .setHumidity (operandByte data)
  | 6 => .checksum
  | 7 => .send

/-- Decoding a command word. It refuses nothing: every one of the 2^19 words is a command (R52). -/
def decode (w : CmdWord) : Instr := decodeFields w.op w.data

/-- Why a number is no command word. -/
inductive DecodeError where
  /-- It has a bit above bit 18, and every command is 19 bits (R45, R53; log 12). -/
  | widerThanCommandWord
deriving DecidableEq, Repr

/-- Decoding a number of any size: its 19-bit word, or a rejection by name. -/
def decodeNat (n : Nat) : Except DecodeError Instr :=
  if n < 2 ^ 19 then .ok (decode (BitVec.ofNat 19 n)) else .error .widerThanCommandWord

/-- The instruction read from an opcode-table word: the low `nbits` bits of `w`, the bits above them zero (log 12). -/
def decodeTableWord (nbits w : Nat) : Option Instr :=
  match decodeNat (w % 2 ^ nbits) with
  | .ok i => some i
  | .error _ => none

/-- The opcode of a command (R48). -/
def Instr.opcode : Instr → Opcode
  | .setType _ => 0b000
  | .setChannel _ => 0b001
  | .setId _ => 0b010
  | .setBattery _ => 0b011
  | .setTemp _ => 0b100
  | .setHumidity _ => 0b101
  | .checksum => 0b110
  | .send => 0b111

/-- The operand field of a command's word, its ignored bits 0 (R54). -/
def Instr.operand : Instr → Operand
  | .setType t => t
  | .setChannel c => c.setWidth 16
  | .setId i => i.setWidth 16
  | .setBattery l => l.setWidth 16
  | .setTemp x => x
  | .setHumidity h => h.setWidth 16
  | .checksum => 0
  | .send => 0

/-- The word of a command (R54). -/
def encode (i : Instr) : CmdWord := CmdWord.of i.opcode i.operand

/-- The bits of an operand that the opcode uses: the complement of the ignored bits of R49. -/
def usedBits (op : Opcode) : Operand :=
  match op.toFin with
  | 0 => 0xFFFF
  | 1 => 0x00FF
  | 2 => 0x00FF
  | 3 => 0x00FF
  | 4 => 0xFFFF
  | 5 => 0x00FF
  | 6 => 0x0000
  | 7 => 0x0000

end Sys2Proof
end

