-- ==== Sys2Proof/Machine/Ports.lean ====
section
/-! DEFINITION. The ports of the block (R23, R24). -/

namespace Sys2Proof.Machine

/-- The input ports other than `clk` (R23): the levels the host drives in the cycle before a rising edge. The edge samples
all but `rdAddr`, which only selects `rd_data` (R34). -/
structure Pins where
  rst : Bool
  cmdValid : Bool
  cmdOp : Opcode
  cmdData : Operand
  rdAddr : RdAddr
deriving DecidableEq, Repr

/-- The output ports (R24). -/
structure Outputs where
  lineOut : Bool
  cmdReady : Bool
  busy : Bool
  rdData : Byte
deriving DecidableEq, Repr

/-- A host that drives nothing: no reset and no command (R102). It stands at the edges for which no sample is listed
(log 2). -/
def Pins.quiet : Pins := ⟨false, false, 0, 0, 0⟩

/-- A host that presents a command word (R46). -/
def Pins.present (w : CmdWord) : Pins := ⟨false, true, w.op, w.data, 0⟩

/-- The command on the port (R45, R48, R49). -/
def Pins.command (p : Pins) : Instr := decodeFields p.cmdOp p.cmdData

end Sys2Proof.Machine
end

