-- ==== Sys2Proof/Machine/State.lean ====
section
/-! DEFINITION. The block's state (R14), its reset value (R30), and the reasons a step could stop. -/

namespace Sys2Proof.Machine

/-- The sequencer phase (R19). -/
inductive Phase where
  /-- 0: no transmission, commands accepted. -/
  | idle
  /-- 1: transmitting the first frame. -/
  | frame1
  /-- 2: inter-message low period. -/
  | gap
  /-- 3: transmitting the second, identical frame. -/
  | frame2
deriving DecidableEq, Repr

/-- Symbol index in a frame, 0 to 95 (R20). -/
abbrev Sym := Fin Config.frameSymbols

/-- Segment index in a symbol, 0 to 2 (R20). -/
abbrev Seg := Fin 3

/-- The state. All fields but the last are R14's whole list; `pins` is the model's own (log 1). -/
structure State where
  /-- `buf[0..8]`, the message buffer (R15). -/
  buf : Memory
  /-- `line`, the level on `line_out`, true for HIGH (R18). -/
  line : Bool
  /-- `phase` (R19). -/
  phase : Phase
  /-- `sym` (R20). -/
  sym : Sym
  /-- `seg` (R20). -/
  seg : Seg
  /-- `tick`, cycles already spent in the segment or gap (R20; log 7). -/
  tick : Nat
  /-- What the host drives at the coming edges, the next edge's first (log 1). -/
  pins : List Pins
deriving DecidableEq, Repr

/-- No fault exists: the block raises no exception and no state is a fault state (R115; log 6). -/
inductive Fault
deriving DecidableEq, Repr

/-- Refusals. -/
inductive Refusal where
  /-- An instruction without a meaning yet, raised by its arm of `exec`. Safe: the machine stops. No arm raises it (log 6). -/
  | notModelled (mnemonic : String)
deriving DecidableEq, Repr

/-- The block's state after a reset edge (R30, R126), for one set of parameters, with nothing driven yet. -/
def State.afterReset (P : Config.Params) : State where
  buf := Memory.afterReset P
  line := false
  phase := .idle
  sym := 0
  seg := 0
  tick := 0
  pins := []

/-- The machine right after reset (R30), a model's first state (R128). -/
def State.reset : State := State.afterReset Config.params

end Sys2Proof.Machine
end

