-- ==== Sys2Proof/Machine/Operands.lean ====
section
/-! DEFINITION. Every operand form (R49 to R51) and the digit splits of the two readings (R64, R68). -/

namespace Sys2Proof.Machine

/-- The high nibble of a byte, b[7:4] (R9). -/
def highNibble (b : Byte) : BitVec 4 := b.extractLsb' 4 4

/-- The low nibble of a byte, b[3:0] (R9). -/
def lowNibble (b : Byte) : BitVec 4 := b.extractLsb' 0 4

/-- `u8(v)`, v mod 256 (R9). -/
def u8 (v : Nat) : Byte := BitVec.ofNat 8 v

/-- SETTYPE's first byte, data[15:8] (R35, R59). -/
def typeFirst (t : Operand) : Byte := t.extractLsb' 8 8

/-- SETTYPE's second byte, data[7:0] (R35, R59). -/
def typeSecond (t : Operand) : Byte := t.extractLsb' 0 8

/-- `T`, the temperature in tenths (R50). -/
def tempValue (x : Operand) : Int := x.toInt

/-- `M`, the magnitude in tenths (R63). -/
def tempMagnitude (x : Operand) : Nat := (tempValue x).natAbs

/-- `I`, the integer part of the magnitude (R64). -/
def tempInt (x : Operand) : Nat := tempMagnitude x / 10

/-- `tt`, the tenths digit (R64). -/
def tempTenths (x : Operand) : Nat := tempMagnitude x % 10

/-- `td`, the tens, a digit only when `I` ≤ 99 (R64). -/
def tempTens (x : Operand) : Nat := tempInt x / 10

/-- `tf`, the units digit (R64). -/
def tempUnits (x : Operand) : Nat := tempInt x % 10

/-- `(td << 4) | tf` cut to a byte (R65, R66). -/
def tempDigitsByte (x : Operand) : Byte := u8 ((tempTens x <<< 4) ||| tempUnits x)

/-- `ht`, H div 10 (R68, R69). -/
def humTens (h : Byte) : Nat := h.toNat / 10

/-- `hu`, H mod 10 (R68). -/
def humUnits (h : Byte) : Nat := h.toNat % 10

/-- A digit moved to the high nibble, as both OR steps use it (R65, R68). -/
def digitHigh (d : Nat) : Byte := u8 (d <<< 4)

end Sys2Proof.Machine
end

