-- ==== Sys2Proof/Machine/Flags.lean ====
section
/-! DEFINITION. The block has no condition codes (R25). Here stand the codes of its two message flags (R62, R63), the
checksum value (R72, R73) and the status outputs (R21, R100). -/

namespace Sys2Proof.Machine

/-- Byte 4 as SETBATTERY writes it: level 0 is low battery (R62). -/
def batteryCode (l : Byte) : Byte := if l = 0 then Config.battLowCode else 0x00

/-- Byte 6 as SETTEMP writes it: the sign of T (R63). -/
def signCode (x : Operand) : Byte := if tempValue x < 0 then Config.signNegCode else 0x00

/-- The battery-low field, buf[4][3:2] (R25). -/
def battLowField (m : Memory) : BitVec 2 := (m.read 4).extractLsb' 2 2

/-- The sign flag, buf[6][3] (R25). -/
def signFlag (m : Memory) : Bool := (m.read 6).getLsbD 3

/-- The sum of a byte's two nibbles (R72). -/
def nibbleSum (b : Byte) : Nat := (highNibble b).toNat + (lowNibble b).toNat

/-- `nsum(n)`, the nibble sum of the first n bytes (R72, R76). -/
def nsum (m : Memory) (n : Nat) : Nat := ((m.bytes.take n).map nibbleSum).sum

/-- `chk(buf)` (R73). -/
def chk (m : Memory) : Byte := BitVec.ofInt 8 ((nsum m Config.chkCount : Int) - Config.chkOffset)

/-- The two-bit value of a phase (R19, R26). -/
def Phase.code : Phase → BitVec 2
  | .idle => 0
  | .frame1 => 1
  | .gap => 2
  | .frame2 => 3

/-- `cmd_ready` (R21, R100). -/
def State.cmdReady (s : State) : Bool := decide (s.phase = .idle)

/-- `busy` (R21, R100). -/
def State.busy (s : State) : Bool := decide (s.phase ≠ .idle)

end Sys2Proof.Machine
end

