-- ==== Sys2Proof/Machine/Ops.lean ====
section
/-! DEFINITION. The named operations over the buffer, the sequencer position and the input samples. Taking an exception
and returning from one have no operation here: the block raises none (R115, R118, R119). -/

namespace Sys2Proof.Machine

/-- `buf[a]` (R10). -/
def State.byte (s : State) (a : Addr) : Byte := s.buf.read a

/-- `buf[a] <- v` (R10). -/
def State.setByte (s : State) (a : Addr) (v : Byte) : State := { s with buf := s.buf.write a v }

/-- `buf[a] <- buf[a] | v`, the OR steps of R65 and R68 (R71). -/
def State.orByte (s : State) (a : Addr) (v : Byte) : State := s.setByte a (s.byte a ||| v)

/-- `buf[8] <- chk(buf)`, which CHECKSUM and SEND share (R74, R91). -/
def State.storeChecksum (s : State) : State := s.setByte 8 (chk s.buf)

/-- The sequencer position and the line, written together (R104, R106 to R108). -/
def State.setPosition (s : State) (ph : Phase) (sym : Sym) (seg : Seg) (line : Bool) : State :=
  { s with phase := ph, sym := sym, seg := seg, tick := 0, line := line }

/-- `tick <- tick + 1` (R105, R108). -/
def State.tickOn (s : State) : State := { s with tick := s.tick + 1 }

/-- The IDLE position: line LOW, counters 0 (R20, R29, R107). -/
def State.settle (s : State) : State := s.setPosition .idle 0 0 false

/-- The input samples replaced. -/
def State.setPins (s : State) (ps : List Pins) : State := { s with pins := ps }

/-- The sample of the next edge (log 1, log 2). -/
def State.nextPins (s : State) : Pins := s.pins.headD Pins.quiet

/-- The state once the next edge has its sample: the list moves on by one cycle. -/
def State.dropPins (s : State) : State := s.setPins s.pins.tail

/-- Every state element at its reset value (R101, R126). The samples still to come are inputs, not state, and stay. -/
def State.resetEdge (P : Config.Params) (s : State) : State := (State.afterReset P).setPins s.pins

/-- The read-back port (R34, R40): `buf[rd_addr]`, or 0x00 where there is no storage. -/
def State.rdData (s : State) (a : RdAddr) : Byte :=
  if h : a.toNat < Config.msgLen then s.byte ⟨a.toNat, h⟩ else 0x00

/-- The output ports in the cycle in which the host drives `p` (R24). -/
def State.outputs (s : State) (p : Pins) : Outputs where
  lineOut := s.line
  cmdReady := s.cmdReady
  busy := s.busy
  rdData := s.rdData p.rdAddr

/-- The host drives `w` on the command port in the coming cycle and the block is in IDLE, so that the next edge accepts
`w` (R47; log 4). The block's buffer and the later samples stay. -/
def State.presentNext (s : State) (w : CmdWord) : State := s.settle.setPins (Pins.present w :: s.pins.tail)

end Sys2Proof.Machine
end

