-- ==== Sys2Proof/Machine/Checksum.lean ====
section
/-! DEFINITION. CHECKSUM. -/

namespace Sys2Proof.Machine

/-- CHECKSUM (R74): byte 8 takes the checksum of bytes 0 to 7, and nothing is transmitted (R75). -/
def execChecksum (s : State) : Host.Outcome State Fault Refusal := .next s.storeChecksum

end Sys2Proof.Machine
end

