-- ==== Sys2Proof/Machine/Identity.lean ====
section
/-! DEFINITION. The identity commands SETTYPE, SETCHANNEL and SETID. A meaning is the effect at the edge that accepts the
command (R37, R103; log 14). -/

namespace Sys2Proof.Machine

/-- SETTYPE (R59). -/
def execSetType (t : Operand) (s : State) : Host.Outcome State Fault Refusal :=
  .next ((s.setByte 0 (typeFirst t)).setByte 1 (typeSecond t))

/-- SETCHANNEL (R60): stored as it is, neither checked nor shifted. -/
def execSetChannel (c : Byte) (s : State) : Host.Outcome State Fault Refusal :=
  .next (s.setByte 2 c)

/-- SETID (R61). -/
def execSetId (i : Byte) (s : State) : Host.Outcome State Fault Refusal :=
  .next (s.setByte 3 i)

end Sys2Proof.Machine
end

