-- ==== Sys2Proof/Machine/Reading.lean ====
section
/-! DEFINITION. The reading commands SETBATTERY, SETTEMP and SETHUMIDITY, and the decoders that read a reading back
(R70). -/

namespace Sys2Proof.Machine

/-- SETBATTERY (R62): the whole of byte 4 is replaced. -/
def execSetBattery (l : Byte) (s : State) : Host.Outcome State Fault Refusal :=
  .next (s.setByte 4 (batteryCode l))

/-- SETTEMP (R63 to R66): byte 6 replaced by the sign, byte 5 by the tens and units, the tenths digit ORed into byte 4. -/
def execSetTemp (x : Operand) (s : State) : Host.Outcome State Fault Refusal :=
  .next (((s.setByte 6 (signCode x)).setByte 5 (tempDigitsByte x)).orByte 4 (digitHigh (tempTenths x)))

/-- SETHUMIDITY (R68, R69): byte 7 replaced by the tens, the units digit ORed into byte 6. -/
def execSetHumidity (h : Byte) (s : State) : Host.Outcome State Fault Refusal :=
  .next ((s.setByte 7 (u8 (humTens h))).orByte 6 (digitHigh (humUnits h)))

/-- `decTemp(buf)`, tenths of a degree (R70). -/
def decTemp (m : Memory) : Int :=
  (if signFlag m then -1 else 1) *
    ((100 * (highNibble (m.read 5)).toNat + 10 * (lowNibble (m.read 5)).toNat + (highNibble (m.read 4)).toNat : Nat) : Int)

/-- `decHum(buf)` (R70). -/
def decHum (m : Memory) : Nat := 10 * (m.read 7).toNat + (highNibble (m.read 6)).toNat

/-- `decBattLow(buf)` (R70). -/
def decBattLow (m : Memory) : Bool := decide (lowNibble (m.read 4) = 0xC)

end Sys2Proof.Machine
end

