-- ==== Sys2Proof/Machine/Serializer.lean ====
section
/-! DEFINITION. The serializer: frame bytes to bits, bits to symbols, symbols to a waveform (R78 to R89), and the waveform
of a whole SEND (R91, R92). -/

namespace Sys2Proof.Machine

/-- One piece of a waveform: a level held for a whole number of TIME units (R12, R78). -/
structure Segment where
  level : Bool
  units : Nat
deriving DecidableEq, Repr

/-- A waveform as its segments in order. What is observable of it is its level in time, `levelAt` (R88). -/
abbrev Wave := List Segment

/-- The bytes of a frame in the order sent (R79). -/
def frameBytes (m : Memory) : List Byte := Config.preamble ++ m.bytes ++ Config.postamble

/-- The logical bit of frame symbol k: bit k mod 8 of byte k div 8, least-significant bit first (R79, R82, R83). -/
def frameBit (m : Memory) (k : Nat) : Bool := ((frameBytes m).getD (k / 8) 0).getLsbD (k % 8)

/-- `dur(s)`, in TIME units (R84). -/
def dur (s : Seg) : Nat :=
  match s with
  | 0 => 1
  | 1 => 2
  | 2 => 1

/-- `lvl(b, s)` (R84): the middle segment has the bit's level, the outer two its inverse. -/
def lvl (b : Bool) (s : Seg) : Bool := if s = 1 then b else !b

/-- `symWave(b)` (R84). -/
def symWave (b : Bool) : Wave := [⟨lvl b 0, dur 0⟩, ⟨lvl b 1, dur 1⟩, ⟨lvl b 2, dur 2⟩]

/-- `frameWave(buf)` (R86). -/
def frameWave (m : Memory) : Wave := (List.range Config.frameSymbols).flatMap (fun k => symWave (frameBit m k))

/-- The inter-message gap (R90, R91). -/
def gapWave : Wave := [⟨false, Config.gapUnits⟩]

/-- `W`, what a SEND drives on the line: REPEAT identical frames with the gap between (R91, R94). -/
def sendWave (m : Memory) : Wave := List.intercalate gapWave (List.replicate Config.frameRepeat (frameWave m))

/-- How long a waveform lasts, in TIME units (R87, R93). -/
def waveUnits (w : Wave) : Nat := (w.map Segment.units).sum

/-- The level of a waveform u TIME units after its start; LOW once it has ended (R91, R92). -/
def levelAt : Wave → Nat → Bool
  | [], _ => false
  | g :: rest, u => if u < g.units then g.level else levelAt rest (u - g.units)

/-- The run-length form: equal neighbours joined into one interval (R88). -/
def mergeRuns : Wave → Wave
  | [] => []
  | g :: rest =>
    match mergeRuns rest with
    | [] => [g]
    | g' :: rest' => if g.level = g'.level then ⟨g.level, g.units + g'.units⟩ :: rest' else g :: g' :: rest'

/-- A duration in nominal microseconds (R11, R141; log 9). -/
def unitsToMicros (units : Nat) : Nat := units * Config.timeUs

/-- A duration in clock cycles (R11, R141). -/
def unitsToCycles (P : Config.Params) (units : Nat) : Nat := units * P.timeCycles

/-- `segCycles(seg)` (R98). -/
def segCycles (P : Config.Params) (seg : Seg) : Nat := unitsToCycles P (dur seg)

/-- `gapCycles` (R98). -/
def gapCycles (P : Config.Params) : Nat := unitsToCycles P Config.gapUnits

/-- The level driven at a frame position, from the buffer as it stands (R89, R99; log 13). -/
def drivenLevel (m : Memory) (sym : Sym) (seg : Seg) : Bool := lvl (frameBit m sym.val) seg

end Sys2Proof.Machine
end

