-- ==== Sys2Proof/Machine/Send.lean ====
section
/-! DEFINITION. SEND, the entry into a frame it shares with the sequencer, and the transaction level (R6, R91). -/

namespace Sys2Proof.Machine

/-- The start of a frame: position 0, the line at the first segment's level (R104, R108). -/
def State.startFrame (s : State) (ph : Phase) : State := s.setPosition ph 0 0 (drivenLevel s.buf 0 0)

/-- SEND at its accepting edge (R91, R104): the checksum is stored and the first frame begins. The edges after it drive
the rest (R105 to R108). -/
def execSend (s : State) : Host.Outcome State Fault Refusal := .next (s.storeChecksum.startFrame .frame1)

end Sys2Proof.Machine
end

