-- ==== Sys2Proof/Machine/Dispatch.lean ====
section
/-! DEFINITION. One arm per command: the effect at the edge that accepts it (R103, R104; log 14). -/

namespace Sys2Proof.Machine

/-- The effect of an accepted command. -/
def exec (i : Instr) (s : State) : Host.Outcome State Fault Refusal :=
  match i with
  | .setType t => Sys2Proof.Machine.execSetType t s
  | .setChannel c => Sys2Proof.Machine.execSetChannel c s
  | .setId k => Sys2Proof.Machine.execSetId k s
  | .setBattery l => Sys2Proof.Machine.execSetBattery l s
  | .setTemp x => Sys2Proof.Machine.execSetTemp x s
  | .setHumidity h => Sys2Proof.Machine.execSetHumidity h s
  | .checksum => Sys2Proof.Machine.execChecksum s
  | .send => Sys2Proof.Machine.execSend s

end Sys2Proof.Machine
end

