-- ==== Sys2Proof/Machine/Sequencer.lean ====
section
/-! DEFINITION. The timing sequencer, edge rules 5 to 8 (R105 to R108). -/

namespace Sys2Proof.Machine

/-- The last symbol of a frame (R106, R107). -/
def lastSym : Sym := 95

/-- The last segment of a symbol (R106, R107). -/
def lastSeg : Seg := 2

/-- Edge rule 6: on to the next segment, or to the first segment of the next symbol (R106). -/
def State.nextSegment (s : State) : State :=
  let sym := if s.seg = lastSeg then s.sym + 1 else s.sym
  let seg := if s.seg = lastSeg then 0 else s.seg + 1
  s.setPosition s.phase sym seg (drivenLevel s.buf sym seg)

/-- Edge rule 7: the end of a frame, into the gap or back to IDLE, the line LOW (R107). -/
def State.endFrame (s : State) : State :=
  s.setPosition (if s.phase = .frame1 then .gap else .idle) 0 0 false

/-- Edge rules 5 to 7, in a frame (R105 to R107). A segment ends when its cycles are spent; a count beyond them, which no
run reaches, ends it too (log 5). -/
def State.frameEdge (P : Config.Params) (s : State) : State :=
  if s.tick + 1 < segCycles P s.seg then s.tickOn
  else if s.sym = lastSym ∧ s.seg = lastSeg then s.endFrame
  else s.nextSegment

/-- Edge rule 8, in the gap (R108). -/
def State.gapEdge (P : Config.Params) (s : State) : State :=
  if s.tick + 1 < gapCycles P then s.tickOn else s.startFrame .frame2

end Sys2Proof.Machine
end

