-- ==== Sys2Proof/Machine/Edge.lean ====
section
/-! DEFINITION. One rising edge of `clk` (R101 to R108, R117), and the transaction level it refines (R6, R42, R91). -/

namespace Sys2Proof.Machine

/-- A command is accepted at an edge (R47). -/
def State.accepts (s : State) (p : Pins) : Bool := !p.rst && p.cmdValid && s.cmdReady

/-- One rising edge with the host driving `p`: reset first, then, in IDLE, the command presented, then the sequencer
(R101 to R108, R117). -/
def edge (P : Config.Params) (p : Pins) (s : State) : Host.Outcome State Fault Refusal :=
  if p.rst then .next (s.resetEdge P)
  else
    match s.phase with
    | .idle => if p.cmdValid then exec p.command s else .next s
    | .frame1 => .next (s.frameEdge P)
    | .gap => .next (s.gapEdge P)
    | .frame2 => .next (s.frameEdge P)

/-- One edge with the next input sample, which it uses up. -/
def edgeNext (P : Config.Params) (s : State) : Host.Outcome State Fault Refusal := edge P s.nextPins s.dropPins

/-- What a command drives on the line, given the buffer after it (R91). Only SEND drives anything (R95). -/
def commandWave : Instr → Memory → Wave
  | .setType _, _ => []
  | .setChannel _, _ => []
  | .setId _, _ => []
  | .setBattery _, _ => []
  | .setTemp _, _ => []
  | .setHumidity _, _ => []
  | .checksum, _ => []
  | .send, m => sendWave m

/-- A command at the transaction level (R6): the state once it is over, back in IDLE with the line LOW, and what it drove
on the line. -/
def transact (i : Instr) (s : State) : Host.Outcome (State × Wave) Fault Refusal :=
  match exec i s with
  | .next t => .next (t.settle, commandWave i t.buf)
  | .fault r => .fault r
  | .refused r => .refused r

/-- Commands composed in acceptance order (R42), with the waveforms of their SENDs. -/
def transactAll : List Instr → State → Host.Outcome (State × List Wave) Fault Refusal
  | [], s => .next (s, [])
  | i :: rest, s =>
    match transact i s with
    | .next (t, w) =>
      match transactAll rest t with
      | .next (u, ws) => .next (u, if w = [] then ws else w :: ws)
      | .fault r => .fault r
      | .refused r => .refused r
    | .fault r => .fault r
    | .refused r => .refused r

end Sys2Proof.Machine
end

