-- ==== Sys2Proof/Machine/Step.lean ====
section
/-! DEFINITION. One step of the machine: one rising edge of `clk` (R97, R101 to R108). -/

namespace Sys2Proof.Machine

/-- One rising edge, for the block's own parameters, with the next input sample. -/
def step (s : State) : Host.Outcome State Fault Refusal := edgeNext Config.params s

/-- `s` with the command word of a table row driven on the command port at the next edge, the block ready to accept it
(log 4). The port has 19 command wires, so bits above them are not driven. -/
def State.withFetchWord (s : State) (nbits w : Nat) : State := s.presentNext (BitVec.ofNat 19 (w % 2 ^ nbits))

end Sys2Proof.Machine
end

