-- ==== Sys2Proof/Machine/Assembler.lean ====
section
/-! DEFINITION. The assembler of command programs (R54 to R56): text lines to commands, refusing by line and reason. -/

namespace Sys2Proof.Machine

/-- The value of a decimal digit. -/
def decDigit (c : Char) : Option Nat :=
  if '0'.toNat ≤ c.toNat ∧ c.toNat ≤ '9'.toNat then some (c.toNat - '0'.toNat) else none

/-- The value of a hexadecimal digit, letters in either case (log 11). -/
def hexDigit (c : Char) : Option Nat :=
  if 'A'.toNat ≤ c.toNat ∧ c.toNat ≤ 'F'.toNat then some (c.toNat - 'A'.toNat + 10)
  else if 'a'.toNat ≤ c.toNat ∧ c.toNat ≤ 'f'.toNat then some (c.toNat - 'a'.toNat + 10)
  else decDigit c

/-- The digits of a word, refused if a character is none or there is no digit at all. -/
def digits (digit : Char → Option Nat) (cs : List Char) : Option (List Nat) :=
  if cs.isEmpty then none else cs.mapM digit

/-- The number a digit list names in a base. -/
def ofDigits (base : Nat) (ds : List Nat) : Nat := ds.foldl (fun n d => n * base + d) 0

/-- An integer operand, decimal or hexadecimal (R54). -/
def intLit (cs : List Char) : Option Nat :=
  match cs with
  | '0' :: 'x' :: rest => (digits hexDigit rest).map (ofDigits 16)
  | _ => (digits decDigit cs).map (ofDigits 10)

/-- A temperature literal's part after the sign (R55). -/
def unsignedTempLit (neg : Bool) (cs : List Char) : Option TempLit :=
  match cs.dropWhile (· ≠ '.') with
  | [] => (digits decDigit cs).map (fun d => ⟨neg, ofDigits 10 d, []⟩)
  | _ :: rest =>
    match digits decDigit (cs.takeWhile (· ≠ '.')), digits decDigit rest with
    | some d, some f => some ⟨neg, ofDigits 10 d, f⟩
    | _, _ => none

/-- A temperature literal `[-]D[.F]` (R55). -/
def tempLit (cs : List Char) : Option TempLit :=
  match cs with
  | '-' :: rest => unsignedTempLit true rest
  | _ => unsignedTempLit false cs

/-- White space within a line (log 11). -/
def isBlank (c : Char) : Bool := c = ' ' || c = '\t' || c = '\r'

/-- The words of a line, parted by white space and commas, a comma standing as a word of its own (R54, R56). `cur` is the
word being read, last character first. -/
def wordsFrom (cur : List Char) : List Char → List (List Char)
  | [] => if cur.isEmpty then [] else [cur.reverse]
  | c :: rest =>
    if isBlank c then (if cur.isEmpty then wordsFrom [] rest else cur.reverse :: wordsFrom [] rest)
    else if c = ',' then
      (if cur.isEmpty then [','] :: wordsFrom [] rest else cur.reverse :: [','] :: wordsFrom [] rest)
    else wordsFrom (c :: cur) rest

/-- A line without its comment (R54). -/
def stripComment (cs : List Char) : List Char := cs.takeWhile (· ≠ ';')

/-- The operands after a mnemonic, parted by single commas (R54, R56). -/
def operandList : List (List Char) → Except AsmReason (List (List Char))
  | [] => .ok []
  | [w] => if w = [','] then .error .missingOperand else .ok [w]
  | w :: c :: rest =>
    if w = [','] then .error .missingOperand
    else if c = [','] then
      match rest with
      | [] => .error .missingOperand
      | r :: rs =>
        match operandList (r :: rs) with
        | .ok ws => .ok (w :: ws)
        | .error e => .error e
    else .error .extraOperand

/-- A literal, or the refusal of one that the grammar does not have. -/
def literal {α : Type} (x : Option α) : Except AsmReason α :=
  match x with
  | some v => .ok v
  | none => .error .malformedOperand

/-- A command of no operand (R54). -/
def takeNone (c : SourceCmd) (ws : List (List Char)) : Except AsmReason SourceCmd :=
  match ws with
  | [] => .ok c
  | _ :: _ => .error .extraOperand

/-- A command of one operand (R54). -/
def takeOne {α : Type} (f : α → SourceCmd) (lit : List Char → Option α) (ws : List (List Char)) :
    Except AsmReason SourceCmd :=
  match ws with
  | [] => .error .missingOperand
  | [w] => (literal (lit w)).map f
  | _ :: _ :: _ => .error .extraOperand

/-- A pseudo-command of three operands (R56). -/
def takeThree {α β γ : Type} (f : α → β → γ → SourceCmd) (la : List Char → Option α) (lb : List Char → Option β)
    (lc : List Char → Option γ) (ws : List (List Char)) : Except AsmReason SourceCmd :=
  match ws with
  | [a, b, c] =>
    match literal (la a), literal (lb b), literal (lc c) with
    | .ok x, .ok y, .ok z => .ok (f x y z)
    | .error e, _, _ => .error e
    | _, .error e, _ => .error e
    | _, _, .error e => .error e
  | [] => .error .missingOperand
  | [_] => .error .missingOperand
  | [_, _] => .error .missingOperand
  | _ :: _ :: _ :: _ :: _ => .error .extraOperand

/-- How a mnemonic takes its operand words; none for a word that is no mnemonic (R54, R56; log 11). -/
def commandOf (mnemonic : List Char) : Option (List (List Char) → Except AsmReason SourceCmd) :=
  if mnemonic = ['S', 'E', 'T', 'T', 'Y', 'P', 'E'] then some (takeOne .setType intLit)
  else if mnemonic = ['S', 'E', 'T', 'C', 'H', 'A', 'N', 'N', 'E', 'L'] then some (takeOne .setChannel intLit)
  else if mnemonic = ['S', 'E', 'T', 'I', 'D'] then some (takeOne .setId intLit)
  else if mnemonic = ['S', 'E', 'T', 'B', 'A', 'T', 'T', 'E', 'R', 'Y'] then some (takeOne .setBattery intLit)
  else if mnemonic = ['S', 'E', 'T', 'T', 'E', 'M', 'P'] then some (takeOne .setTemp tempLit)
  else if mnemonic = ['S', 'E', 'T', 'H', 'U', 'M', 'I', 'D', 'I', 'T', 'Y'] then some (takeOne .setHumidity intLit)
  else if mnemonic = ['C', 'H', 'E', 'C', 'K', 'S', 'U', 'M'] then some (takeNone .checksum)
  else if mnemonic = ['S', 'E', 'N', 'D'] then some (takeNone .send)
  else if mnemonic = ['I', 'N', 'I', 'T'] then some (takeThree .init intLit intLit intLit)
  else if mnemonic = ['R', 'E', 'A', 'D', 'I', 'N', 'G'] then some (takeThree .reading intLit tempLit intLit)
  else if mnemonic = ['R', 'E', 'P', 'O', 'R', 'T'] then some (takeThree .report intLit tempLit intLit)
  else none

/-- A line read: nothing on it, or a source command (R54; log 11). -/
def parseLine (cs : List Char) : Except AsmReason (Option SourceCmd) :=
  match wordsFrom [] (stripComment cs) with
  | [] => .ok none
  | m :: ws =>
    match commandOf m with
    | none => .error .unknownMnemonic
    | some take =>
      match operandList ws with
      | .error e => .error e
      | .ok os => (take os).map some

/-- The commands a source command stands for, pseudo-commands expanded in the order of R56. -/
def SourceCmd.expand : SourceCmd → List Instr
  | .setType t => [.setType (BitVec.ofNat 16 t)]
  | .setChannel c => [.setChannel (BitVec.ofNat 8 c)]
  | .setId i => [.setId (BitVec.ofNat 8 i)]
  | .setBattery l => [.setBattery (BitVec.ofNat 8 l)]
  | .setTemp x => [.setTemp (BitVec.ofInt 16 x.tenths)]
  | .setHumidity h => [.setHumidity (BitVec.ofNat 8 h)]
  | .checksum => [.checksum]
  | .send => [.send]
  | .init t c i => [.setType (BitVec.ofNat 16 t), .setChannel (BitVec.ofNat 8 c), .setId (BitVec.ofNat 8 i)]
  | .reading l x h =>
    [.setBattery (BitVec.ofNat 8 l), .setTemp (BitVec.ofInt 16 x.tenths), .setHumidity (BitVec.ofNat 8 h)]
  | .report l x h =>
    [.setBattery (BitVec.ofNat 8 l), .setTemp (BitVec.ofInt 16 x.tenths), .setHumidity (BitVec.ofNat 8 h), .send]

/-- A source command to its commands, or the refusal of its operands (R54, R55). -/
def assembleCmd (c : SourceCmd) : Except AsmReason (List Instr) :=
  match c.problem with
  | none => .ok (SourceCmd.expand c)
  | some r => .error r

/-- The lines of a text, parted at line ends. `cur` is the line being read, last character first. -/
def linesFrom (cur : List Char) : List Char → List (List Char)
  | [] => [cur.reverse]
  | c :: rest => if c = '\n' then cur.reverse :: linesFrom [] rest else linesFrom (c :: cur) rest

/-- The lines of a program from line `n` on, assembled, or the first refusal with its line (R54). -/
def assembleFrom : Nat → List (List Char) → Except AsmError (List Instr)
  | _, [] => .ok []
  | n, cs :: rest =>
    match parseLine cs with
    | .error r => .error ⟨n, r⟩
    | .ok none => assembleFrom (n + 1) rest
    | .ok (some c) =>
      match assembleCmd c with
      | .error r => .error ⟨n, r⟩
      | .ok is =>
        match assembleFrom (n + 1) rest with
        | .ok js => .ok (is ++ js)
        | .error e => .error e

/-- A program text assembled to its command words (R54, R57). -/
def assemble (text : List Char) : Except AsmError (List CmdWord) :=
  match assembleFrom 1 (linesFrom [] text) with
  | .ok is => .ok (is.map encode)
  | .error e => .error e

end Sys2Proof.Machine
end

