-- ==== Sys2Proof/Machine/Driver.lean ====
section
/-! DEFINITION. A host that runs a command program (R57): its words in order, each presented until it is accepted. -/

namespace Sys2Proof.Machine

/-- The host's program still to be accepted, and the block. -/
structure Driver where
  prog : List CmdWord
  block : State
deriving DecidableEq, Repr

/-- What the host drives: the next word, or nothing once the program is over (R46, R57). -/
def Driver.pins (d : Driver) : Pins :=
  match d.prog with
  | [] => Pins.quiet
  | w :: _ => Pins.present w

/-- One edge of host and block: the word presented is done with when the block accepts it (R47, R57). -/
def Driver.edge (P : Config.Params) (d : Driver) : Host.Outcome Driver Fault Refusal :=
  match Sys2Proof.Machine.edge P d.pins d.block with
  | .next t => .next ⟨if d.block.accepts d.pins then d.prog.tail else d.prog, t⟩
  | .fault r => .fault r
  | .refused r => .refused r

/-- `n` edges. -/
def Driver.run (P : Config.Params) : Nat → Driver → Host.Outcome Driver Fault Refusal
  | 0, d => .next d
  | n + 1, d =>
    match d.edge P with
    | .next d' => Driver.run P n d'
    | .fault r => .fault r
    | .refused r => .refused r

/-- The edges a command holds the port for, from its own accepting edge to the first that can accept the next command
(R110, R140). -/
def commandEdges (P : Config.Params) : Instr → Nat
  | .setType _ => 1
  | .setChannel _ => 1
  | .setId _ => 1
  | .setBattery _ => 1
  | .setTemp _ => 1
  | .setHumidity _ => 1
  | .checksum => 1
  | .send => 1 + unitsToCycles P (Config.frameRepeat * (4 * Config.frameSymbols) + Config.gapUnits)

end Sys2Proof.Machine
end

