-- ==== Sys2Proof/Safety.lean ====
section
/-! DEFINITION. What claims are stated in: the invariant of R29, field ownership (R17), and which parts of a state agree. -/

namespace Sys2Proof.Machine

/-- The invariants of R29. Its bounds on `sym` and `seg` are in their types. -/
structure State.OnSchedule (P : Config.Params) (s : State) : Prop where
  idle : s.phase = .idle → s.line = false ∧ s.sym = 0 ∧ s.seg = 0 ∧ s.tick = 0
  frame : s.phase = .frame1 ∨ s.phase = .frame2 →
    s.tick < segCycles P s.seg ∧ s.line = drivenLevel s.buf s.sym s.seg
  gap : s.phase = .gap → s.line = false ∧ s.sym = 0 ∧ s.seg = 0 ∧ s.tick < gapCycles P

/-- The invariants of R29, with the buffer's canonical form (log 8). -/
structure State.Inv (P : Config.Params) (s : State) : Prop where
  bufWf : s.buf.wf = true
  onSchedule : s.OnSchedule P

/-- The bytes a command writes (R17). -/
def Instr.writes : Instr → List Addr
  | .setType _ => [0, 1]
  | .setChannel _ => [2]
  | .setId _ => [3]
  | .setBattery _ => [4]
  | .setTemp _ => [4, 5, 6]
  | .setHumidity _ => [6, 7]
  | .checksum => [8]
  | .send => [8]

/-- The two states agree on every byte of the buffer. -/
def SameBuffer (s t : State) : Prop := ∀ a : Addr, t.byte a = s.byte a

/-- The two states agree on the line and the sequencer position. -/
def SamePosition (s t : State) : Prop :=
  t.line = s.line ∧ t.phase = s.phase ∧ t.sym = s.sym ∧ t.seg = s.seg ∧ t.tick = s.tick

/-- The two states agree on every byte but those listed. -/
def SameBufferBut (written : List Addr) (s t : State) : Prop := ∀ a : Addr, a ∉ written → t.byte a = s.byte a

end Sys2Proof.Machine
end

