-- ==== Sys2Proof/Certificates/Slice0/Obligations.lean ====
section
/-! DEFINITION. The statements for the provers, from the numbered rules of spec/. -/

open Sys2Proof Sys2Proof.Machine

-- Decoding and encoding

/-- R48 and R49: each opcode value names its command, with the operand bits that command uses. -/
def Obligations.OpcodeMapNamesEveryCommand : Prop :=
  ∀ d : Operand,
    decodeFields 0b000 d = .setType d ∧
    decodeFields 0b001 d = .setChannel (d.extractLsb' 0 8) ∧
    decodeFields 0b010 d = .setId (d.extractLsb' 0 8) ∧
    decodeFields 0b011 d = .setBattery (d.extractLsb' 0 8) ∧
    decodeFields 0b100 d = .setTemp d ∧
    decodeFields 0b101 d = .setHumidity (d.extractLsb' 0 8) ∧
    decodeFields 0b110 d = .checksum ∧
    decodeFields 0b111 d = .send

/-- The words of 95_test_vectors.md section 2.1, with the word 0x3FF00 whose ignored bits are not 0. -/
def Obligations.SpecWordsDecodeToTheirCommands : Prop :=
  decode 0x01A2D = .setType 0x1A2D ∧ decode 0x10020 = .setChannel 0x20 ∧ decode 0x200BB = .setId 0xBB ∧
  decode 0x30000 = .setBattery 0 ∧ decode 0x3FF00 = .setBattery 0 ∧ decode 0x400EA = .setTemp 234 ∧
  decode 0x4FFC7 = .setTemp (BitVec.ofInt 16 (-57)) ∧ decode 0x5002D = .setHumidity 45 ∧
  decode 0x60000 = .checksum ∧ decode 0x70000 = .send

/-- Every command, at every operand, is the decoding of its encoding. -/
def Obligations.DecodeOfEncodeIsTheCommand : Prop :=
  ∀ i : Instr, i.wf = true → decode (encode i) = i

/-- R52: every 19-bit word decodes to the command its `op` names, and ignored bits have no effect: encoding the decoded
command gives the word back with its ignored bits 0, and words that differ in ignored bits only are one command. -/
def Obligations.IgnoredBitsHaveNoEffect : Prop :=
  (∀ w : CmdWord, (decode w).opcode = w.op ∧ encode (decode w) = CmdWord.of w.op (w.data &&& usedBits w.op)) ∧
  ∀ v w : CmdWord, v.op = w.op → v.data &&& usedBits v.op = w.data &&& usedBits w.op → decode v = decode w

-- The field commands and CHECKSUM

/-- R59. -/
def Obligations.SetTypeStoresBothOperandBytes : Prop :=
  ∀ (d : Operand) (s : State), decodeFields 0b000 d = .setType d ∧
    ∃ t, exec (.setType d) s = .next t ∧
      t.byte 0 = d.extractLsb' 8 8 ∧ t.byte 1 = d.extractLsb' 0 8 ∧
      SameBufferBut [0, 1] s t ∧ SamePosition s t ∧ t.pins = s.pins

/-- R60. -/
def Obligations.SetChannelStoresItsByteUnchanged : Prop :=
  ∀ (d : Operand) (s : State), decodeFields 0b001 d = .setChannel (d.extractLsb' 0 8) ∧
    ∃ t, exec (.setChannel (d.extractLsb' 0 8)) s = .next t ∧
      t.byte 2 = d.extractLsb' 0 8 ∧ SameBufferBut [2] s t ∧ SamePosition s t ∧ t.pins = s.pins

/-- R61: SETID stores its byte, and byte 3 changes at an edge only by an accepted SETID, or by reset (R126). -/
def Obligations.SetIdAloneChangesTheIdByte : Prop :=
  (∀ (d : Operand) (s : State), decodeFields 0b010 d = .setId (d.extractLsb' 0 8) ∧
    ∃ t, exec (.setId (d.extractLsb' 0 8)) s = .next t ∧
      t.byte 3 = d.extractLsb' 0 8 ∧ SameBufferBut [3] s t ∧ SamePosition s t ∧ t.pins = s.pins) ∧
  ∀ s t : State, step s = .next t → t.byte 3 ≠ s.byte 3 →
    s.nextPins.rst = true ∨ (s.accepts s.nextPins = true ∧ ∃ i, s.nextPins.command = .setId i)

/-- R62: level 0 is low battery, the whole of byte 4 is replaced, data[15:8] is ignored. -/
def Obligations.SetBatteryReplacesByteFour : Prop :=
  ∀ (d : Operand) (s : State), decodeFields 0b011 d = .setBattery (d.extractLsb' 0 8) ∧
    ∃ t, exec (.setBattery (d.extractLsb' 0 8)) s = .next t ∧
      (d.toNat % 256 = 0 → t.byte 4 = 0x0C) ∧ (d.toNat % 256 ≠ 0 → t.byte 4 = 0x00) ∧
      SameBufferBut [4] s t ∧ SamePosition s t ∧ t.pins = s.pins

/-- R63, R64 and R65: SETTEMP's magnitude and digits with their bounds, and its three byte writes. -/
def Obligations.SetTempWritesSignAndDigits : Prop :=
  ∀ (d : Operand) (s : State) (T : Int) (M I tt td tf : Nat),
    T = d.toInt → (M : Int) = (if T < 0 then 0 - T else T) → I = M / 10 → tt = M % 10 → td = I / 10 → tf = I % 10 →
    decodeFields 0b100 d = .setTemp d ∧ M ≤ 32768 ∧ I ≤ 3276 ∧ tt ≤ 9 ∧ td ≤ 327 ∧ tf ≤ 9 ∧
    ∃ t, exec (.setTemp d) s = .next t ∧
      t.byte 6 = (if T < 0 then 0x08 else 0x00) ∧
      t.byte 5 = BitVec.ofNat 8 ((td <<< 4) ||| tf) ∧
      t.byte 4 = s.byte 4 ||| BitVec.ofNat 8 (tt <<< 4) ∧
      SameBufferBut [4, 5, 6] s t ∧ SamePosition s t ∧ t.pins = s.pins

/-- R66: at magnitudes of 100.0 and above byte 5 is {td mod 16, I mod 10}, only its high nibble leaves BCD, and bytes 4 and
6 stay well formed. The four rows of R66's table are the last four lines. -/
def Obligations.LargeTemperaturesCutTheTensNibble : Prop :=
  (∀ (d : Operand) (s : State) (I : Nat), 1000 ≤ d.toInt.natAbs → I = d.toInt.natAbs / 10 →
    ∃ t, exec (.setTemp d) s = .next t ∧
      (highNibble (t.byte 5)).toNat = (I / 10) % 16 ∧ (lowNibble (t.byte 5)).toNat = I % 10 ∧
      d.toInt.natAbs % 10 ≤ 9 ∧ highNibble (t.byte 4) = highNibble (s.byte 4) ||| BitVec.ofNat 4 (d.toInt.natAbs % 10) ∧
      lowNibble (t.byte 4) = lowNibble (s.byte 4) ∧ (t.byte 6 = 0x00 ∨ t.byte 6 = 0x08)) ∧
  tempDigitsByte (BitVec.ofInt 16 1000) = 0xA0 ∧
  tempDigitsByte (BitVec.ofInt 16 1234) = 0xC3 ∧
  tempDigitsByte (BitVec.ofInt 16 1999) = 0x39 ∧
  tempDigitsByte (BitVec.ofInt 16 32767) = 0x76

/-- R67's real-arithmetic part: for a temperature of at most 99.9 in magnitude, the source's own formulas, read in exact
rational arithmetic, give the digits SETTEMP writes. -/
def Obligations.SetTempAgreesWithTheSourceFormulas : Prop :=
  ∀ (d : Operand) (s : State) (temp : ℚ) (intPart td tf tempFloat : Int),
    d.toInt.natAbs ≤ 999 → temp = (d.toInt.natAbs : ℚ) / 10 → intPart = ⌊temp⌋ → td = ⌊(intPart : ℚ) / 10⌋ →
    tf = round (((intPart : ℚ) / 10 - td) * 10) → tempFloat = round ((temp - intPart) * 10) →
    ∃ t, exec (.setTemp d) s = .next t ∧
      t.byte 5 = BitVec.ofInt 8 (16 * td + tf) ∧
      t.byte 4 = s.byte 4 ||| BitVec.ofInt 8 (16 * tempFloat)

/-- R68 and R69: byte 7 takes the whole quotient, 0 to 25 for any operand. The units digit is ORed into the high nibble
of byte 6, whose low nibble, sign bit included, is kept. The four examples of R69 are the last lines. -/
def Obligations.SetHumidityWritesTensAndOrsUnits : Prop :=
  (∀ (d : Operand) (s : State) (H ht hu : Nat), H = d.toNat % 256 → ht = H / 10 → hu = H % 10 →
    decodeFields 0b101 d = .setHumidity (d.extractLsb' 0 8) ∧ H ≤ 255 ∧ ht ≤ 25 ∧ hu ≤ 9 ∧
    ∃ t, exec (.setHumidity (d.extractLsb' 0 8)) s = .next t ∧
      (t.byte 7).toNat = ht ∧ t.byte 6 = s.byte 6 ||| BitVec.ofNat 8 (hu <<< 4) ∧
      lowNibble (t.byte 6) = lowNibble (s.byte 6) ∧
      highNibble (t.byte 6) = highNibble (s.byte 6) ||| BitVec.ofNat 4 hu ∧
      SameBufferBut [6, 7] s t ∧ SamePosition s t ∧ t.pins = s.pins) ∧
  (humTens 100 = 0x0A ∧ humUnits 100 = 0) ∧ (humTens 150 = 0x0F ∧ humUnits 150 = 0) ∧
  (humTens 199 = 0x13 ∧ humUnits 199 = 9) ∧ (humTens 255 = 0x19 ∧ humUnits 255 = 5)

/-- R72 to R74: the nibble sum of bytes 0 to 7 is at most 240, and byte 8 takes the sum minus 10 mod 256, which wraps
below 10. Byte 8 itself does not enter. -/
def Obligations.ChecksumStoresNibbleSumMinusTen : Prop :=
  ∀ (d : Operand) (s : State) (N : Nat),
    N = ((([0, 1, 2, 3, 4, 5, 6, 7] : List Addr).map (fun a => (s.byte a).toNat / 16 + (s.byte a).toNat % 16)).sum) →
    decodeFields 0b110 d = .checksum ∧ N ≤ 240 ∧
    ∃ t, exec .checksum s = .next t ∧
      (t.byte 8).toNat = (if N < 10 then 246 + N else N - 10) ∧
      SameBufferBut [8] s t ∧ SamePosition s t ∧ t.pins = s.pins

/-- R104 at the edge, with SEND's own meaning: the checksum is stored, the first frame starts with the line LOW, and bytes
0 to 7 stay. -/
def Obligations.SendStoresChecksumAndStartsFirstFrame : Prop :=
  ∀ (P : Config.Params) (p : Pins) (s : State), p.rst = false → s.phase = .idle → p.cmdValid = true → p.cmdOp = 0b111 →
    ∃ t, exec .send s = .next t ∧ edge P p s = .next t ∧
      t.byte 8 = chk s.buf ∧ SameBufferBut [8] s t ∧
      t.phase = .frame1 ∧ t.sym = 0 ∧ t.seg = 0 ∧ t.tick = 0 ∧
      t.line = lvl (frameBit t.buf 0) 0 ∧ t.line = false ∧ t.pins = s.pins

-- Frames of the commands, taken together

/-- The frame of every command, which every command completes with: bytes other than those R17 gives it are unchanged,
the line and the sequencer position are unchanged but by SEND, and the host's inputs are its own. -/
def Obligations.CommandsWriteOnlyTheirOwnBytes : Prop :=
  ∀ (i : Instr) (s : State), ∃ t, exec i s = .next t ∧
    SameBufferBut (Instr.writes i) s t ∧ (i ≠ .send → SamePosition s t) ∧ t.pins = s.pins

/-- The buffer's only write paths (R33): at an edge a byte changes by reset, or by an accepted command that writes it. -/
def Obligations.BytesChangeOnlyByResetOrTheirCommand : Prop :=
  ∀ (s t : State) (a : Addr), step s = .next t → t.byte a ≠ s.byte a →
    s.nextPins.rst = true ∨ (s.accepts s.nextPins = true ∧ a ∈ Instr.writes s.nextPins.command)

/-- Which commands are idempotent (R39, a rule the spec marks as derived): all the writing commands but SETHUMIDITY,
and not that one. On a buffer in canonical form the second issue leaves the very same state. -/
def Obligations.RepeatedCommandsLeaveTheSameState : Prop :=
  (∀ (i : Instr) (s t : State), s.buf.wf = true → i ≠ .send → (∀ h, i ≠ .setHumidity h) →
    exec i s = .next t → exec i t = .next t) ∧
  ∃ (g h : Byte) (s t u v : State), exec (.setHumidity g) s = .next t ∧ exec (.setHumidity h) t = .next u ∧
    exec (.setHumidity h) s = .next v ∧ u.byte 6 ≠ v.byte 6

-- A reading, and what goes wrong out of order

/-- The round trip (R70, a rule the spec marks as derived): decoding a reading written in the documented
order, from any state, gives its operands back. -/
def Obligations.ReadingDecodesToItsOperands : Prop :=
  ∀ (s : State) (l : Byte) (x : Operand) (h : Byte), ∃ t u v : State,
    exec (.setBattery l) s = .next t ∧ exec (.setTemp x) t = .next u ∧ exec (.setHumidity h) u = .next v ∧
    (-999 ≤ x.toInt → x.toInt ≤ 999 → decTemp v.buf = x.toInt) ∧
    ((v.byte 6).getLsbD 3 = true ↔ x.toInt < 0) ∧
    (h.toNat ≤ 99 → decHum v.buf = h.toNat) ∧
    (decBattLow v.buf = true ↔ l = 0) ∧
    (lowNibble (v.byte 4) = 0x0 ∨ lowNibble (v.byte 4) = 0xC) ∧ (v.byte 6).extractLsb' 0 3 = 0

/-- The battery hazards (R132, and R133, which the spec marks as derived): SETBATTERY after SETTEMP loses the tenths
digit; SETTEMP without SETBATTERY ORs it into the old one, as in R133's example. -/
def Obligations.BatteryOrderHazards : Prop :=
  (∀ (s : State) (l : Byte) (x : Operand), ∃ t u : State,
    exec (.setTemp x) s = .next t ∧ exec (.setBattery l) t = .next u ∧ highNibble (u.byte 4) = 0) ∧
  (∀ (s : State) (x : Operand), ∃ t : State, exec (.setTemp x) s = .next t ∧
    highNibble (t.byte 4) = highNibble (s.byte 4) ||| BitVec.ofNat 4 (x.toInt.natAbs % 10)) ∧
  ∀ s : State, ∃ t u v : State, exec (.setBattery 1) s = .next t ∧ exec (.setTemp (BitVec.ofInt 16 123)) t = .next u ∧
    exec (.setTemp (BitVec.ofInt 16 105)) u = .next v ∧ v.byte 4 = 0x70

/-- The humidity hazards (R134, and R135, which the spec marks as derived): SETTEMP after SETHUMIDITY clears the units
digit and keeps the tens; a second SETHUMIDITY ORs its units digit into the first, as in R135's example, and byte 7
has the second tens. -/
def Obligations.HumidityOrderHazards : Prop :=
  (∀ (s : State) (h : Byte) (x : Operand), ∃ t u : State,
    exec (.setHumidity h) s = .next t ∧ exec (.setTemp x) t = .next u ∧
    highNibble (u.byte 6) = 0 ∧ (u.byte 7).toNat = h.toNat / 10 ∧ decHum u.buf = 10 * (h.toNat / 10)) ∧
  (∀ (s : State) (x : Operand) (g h : Byte), ∃ t u v : State,
    exec (.setTemp x) s = .next t ∧ exec (.setHumidity g) t = .next u ∧ exec (.setHumidity h) u = .next v ∧
    highNibble (v.byte 6) = BitVec.ofNat 4 (g.toNat % 10) ||| BitVec.ofNat 4 (h.toNat % 10) ∧
    (v.byte 7).toNat = h.toNat / 10) ∧
  ∀ (s : State) (x : Operand), ∃ t u v : State, exec (.setTemp x) s = .next t ∧
    exec (.setHumidity 41) t = .next u ∧ exec (.setHumidity 42) u = .next v ∧ decHum v.buf = 43

/-- The two message flags (R25): the battery-low field and the sign flag read what SETBATTERY and SETTEMP recorded. -/
def Obligations.MessageFlagsRecordTheirOperand : Prop :=
  ∀ (s : State) (l : Byte) (x : Operand), ∃ t u : State,
    exec (.setBattery l) s = .next t ∧ battLowField t.buf = (if l = 0 then 0b11 else 0b00) ∧
    exec (.setTemp x) s = .next u ∧ signFlag u.buf = decide (x.toInt < 0)

-- The checksum

/-- The checksum's sensitivity (R77, a rule the spec marks as derived): a change of one bit in bytes 0 to 7 moves the
nibble sum by 1, 2, 4 or 8 and changes the checksum; some two-bit change is not seen; exchanging nibbles or bytes
never is. -/
def Obligations.ChecksumSeesEverySingleBitChange : Prop :=
  (∀ (m : Memory) (a : Addr) (k : Nat), a ≠ 8 → k < 8 → ∀ n, n = m.write a (m.read a ^^^ BitVec.ofNat 8 (2 ^ k)) →
    ((nsum n 8 : Int) - nsum m 8).natAbs ∈ [1, 2, 4, 8] ∧ chk n ≠ chk m) ∧
  (∃ (m : Memory) (a b : Addr) (j k : Nat), a ≠ 8 ∧ b ≠ 8 ∧ a ≠ b ∧ j < 8 ∧ k < 8 ∧
    chk ((m.write a (m.read a ^^^ BitVec.ofNat 8 (2 ^ j))).write b (m.read b ^^^ BitVec.ofNat 8 (2 ^ k))) = chk m) ∧
  (∀ (m : Memory) (a : Addr), a ≠ 8 → chk (m.write a (lowNibble (m.read a) ++ highNibble (m.read a))) = chk m) ∧
  ∀ (m : Memory) (a b : Addr), a ≠ 8 → b ≠ 8 → chk ((m.write a (m.read b)).write b (m.read a)) = chk m

/-- SEND always transmits the checksum of the bytes it transmits (R75): frame symbols 80 to 87 are chk of bytes 0 to 7,
whatever byte 8 held before. -/
def Obligations.SendTransmitsTheFreshChecksum : Prop :=
  ∀ (s : State) (v : Byte), ∃ t : State, exec .send (s.setByte 8 v) = .next t ∧
    (∀ k, k < 8 → frameBit t.buf (80 + k) = (chk s.buf).getLsbD k) ∧ chk t.buf = t.byte 8

-- The serializer

/-- R79 to R82: the frame's bytes, and its bit at every symbol index, least-significant bit first. -/
def Obligations.FrameBitsAreLeastSignificantFirst : Prop :=
  ∀ m : Memory,
    frameBytes m = [0xFF, 0xFF, m.read 0, m.read 1, m.read 2, m.read 3, m.read 4, m.read 5, m.read 6, m.read 7, m.read 8,
      0x00] ∧
    (∀ k, k < 16 → frameBit m k = true) ∧
    (∀ (a : Addr) (j : Nat), j < 8 → frameBit m (16 + 8 * a.val + j) = (m.read a).getLsbD j) ∧
    ∀ k, 88 ≤ k → k < 96 → frameBit m k = false

/-- R84: the two symbols, segment by segment. -/
def Obligations.SymbolsHaveThreeSegments : Prop :=
  symWave false = [⟨true, 1⟩, ⟨false, 2⟩, ⟨true, 1⟩] ∧ symWave true = [⟨false, 1⟩, ⟨true, 2⟩, ⟨false, 1⟩] ∧
  dur 0 = 1 ∧ dur 1 = 2 ∧ dur 2 = 1 ∧ ∀ (b : Bool) (g : Seg), lvl b g = (if g = 1 then b else !b)

/-- The frame's waveform (R85 to R87, rules the spec marks as derived): a frame is the concatenation of its 96
symbols, 288 segments, 384 TIME units, and its level is the bit in units 1 and 2 of a symbol and the inverse in units
0 and 3. -/
def Obligations.FrameLevelsFollowItsBits : Prop :=
  ∀ m : Memory,
    frameWave m = ((List.range 96).map (fun k => symWave (frameBit m k))).flatten ∧
    (frameWave m).length = 288 ∧ waveUnits (frameWave m) = 384 ∧
    ∀ k j, k < 96 → j < 4 →
      levelAt (frameWave m) (4 * k + j) = (if j = 1 ∨ j = 2 then frameBit m k else !frameBit m k)

/-- Every frame, whatever the data, has 192 HIGH units and 192 LOW units (95_test_vectors.md section 2.7). -/
def Obligations.EveryFrameIsHalfHigh : Prop :=
  ∀ m : Memory, ((List.range 384).countP (fun u => levelAt (frameWave m) u)) = 192 ∧
    ((List.range 384).countP (fun u => !levelAt (frameWave m) u)) = 192

/-- R92, a rule the spec marks as derived: the level over a whole SEND, with its joins at both ends and around the
gap, and LOW before it. -/
def Obligations.SendIsTwoFramesAndAGap : Prop :=
  (∀ m : Memory,
    (∀ u, u < 384 → levelAt (sendWave m) u = levelAt (frameWave m) u) ∧
    (∀ u, 384 ≤ u → u < 400 → levelAt (sendWave m) u = false) ∧
    (∀ u, 400 ≤ u → u < 784 → levelAt (sendWave m) u = levelAt (frameWave m) (u - 400)) ∧
    (∀ u, 784 ≤ u → levelAt (sendWave m) u = false) ∧
    levelAt (sendWave m) 0 = false ∧ levelAt (sendWave m) 1 = true ∧
    levelAt (sendWave m) 383 = true ∧ levelAt (sendWave m) 783 = true ∧
    (∀ u, 384 ≤ u → u < 401 → levelAt (sendWave m) u = false) ∧ levelAt (sendWave m) 401 = true) ∧
  ∀ (P : Config.Params) (s : State), s.Inv P → s.phase = .idle → s.line = false

/-- R98 and R141, rules the spec marks as derived: the lengths of a segment and the gap in cycles, and the rows of the
timing table in units, microseconds and cycles. -/
def Obligations.TimingTableRows : Prop :=
  ∀ (P : Config.Params) (m : Memory) (b : Bool),
    segCycles P 0 = P.timeCycles ∧ segCycles P 1 = 2 * P.timeCycles ∧ segCycles P 2 = P.timeCycles ∧
    gapCycles P = 16 * P.timeCycles ∧
    (unitsToMicros (dur 0) = 512 ∧ unitsToMicros (dur 1) = 1024 ∧ unitsToMicros (dur 2) = 512) ∧
    (waveUnits (symWave b) = 4 ∧ unitsToMicros 4 = 2048 ∧ unitsToCycles P 4 = 4 * P.timeCycles) ∧
    (8 * waveUnits (symWave b) = 32 ∧ unitsToMicros 32 = 16384 ∧ unitsToCycles P 32 = 32 * P.timeCycles) ∧
    (16 * waveUnits (symWave b) = 64 ∧ unitsToMicros 64 = 32768 ∧ unitsToCycles P 64 = 64 * P.timeCycles) ∧
    (72 * waveUnits (symWave b) = 288 ∧ unitsToMicros 288 = 147456 ∧ unitsToCycles P 288 = 288 * P.timeCycles) ∧
    (waveUnits (frameWave m) = 384 ∧ unitsToMicros 384 = 196608 ∧ unitsToCycles P 384 = 384 * P.timeCycles) ∧
    (waveUnits gapWave = 16 ∧ unitsToMicros 16 = 8192 ∧ unitsToCycles P 16 = 16 * P.timeCycles) ∧
    (waveUnits (sendWave m) = 784 ∧ unitsToMicros 784 = 401408 ∧ unitsToCycles P 784 = 784 * P.timeCycles)

/-- The run-length form of R88: joining equal neighbours leaves the level at every time, and no two neighbours equal. -/
def Obligations.JoiningEqualNeighboursKeepsTheLevel : Prop :=
  ∀ w : Wave, (∀ u, levelAt (mergeRuns w) u = levelAt w u) ∧ waveUnits (mergeRuns w) = waveUnits w ∧
    ∀ (n : Nat) (g h : Segment), (mergeRuns w)[n]? = some g → (mergeRuns w)[n + 1]? = some h → g.level ≠ h.level

-- Reset

/-- R30: the machine right after reset. -/
def Obligations.ResetStateValues : Prop :=
  State.reset.byte 0 = Config.params.resetType.extractLsb' 8 8 ∧
  State.reset.byte 1 = Config.params.resetType.extractLsb' 0 8 ∧
  State.reset.byte 2 = Config.params.resetChannel ∧ State.reset.byte 3 = Config.params.resetId ∧
  (∀ a : Addr, 4 ≤ a.val → State.reset.byte a = 0x00) ∧
  State.reset.line = false ∧ State.reset.phase = .idle ∧
  State.reset.sym = 0 ∧ State.reset.seg = 0 ∧ State.reset.tick = 0 ∧
  State.reset.cmdReady = true ∧ State.reset.busy = false ∧
  ∀ p : Pins, (State.reset.outputs p).lineOut = false

/-- R101, R126 and R127: at an edge with `rst = 1` every state element takes its reset value, whatever the phase and the
command inputs. -/
def Obligations.ResetEdgeRestoresEveryElement : Prop :=
  ∀ s : State, s.nextPins.rst = true → ∃ t, step s = .next t ∧
    (∀ a : Addr, t.byte a = State.reset.byte a) ∧ t.line = false ∧ t.phase = .idle ∧
    t.sym = 0 ∧ t.seg = 0 ∧ t.tick = 0 ∧ t.pins = s.pins.tail

-- The edges

/-- R102: in IDLE with no command and no reset nothing changes. -/
def Obligations.IdleWithoutCommandKeepsTheState : Prop :=
  ∀ s : State, s.nextPins.rst = false → s.phase = .idle → s.nextPins.cmdValid = false →
    ∃ t, step s = .next t ∧ t.buf = s.buf ∧ SamePosition s t ∧ t.pins = s.pins.tail

/-- A step runs the decoded command: a word on the port that the block accepts (R47, R103, R104) makes the step the
command's meaning, on the state with this edge's input sample used up. The second clause is the model's choice and no rule
of the spec: it rests on `withFetchWord` (log 4), which presents a table word to a block put in IDLE from any phase, and on
`decodeTableWord` (log 12). -/
def Obligations.StepRunsTheAcceptedCommand : Prop :=
  (∀ (s : State) (w : CmdWord), s.phase = .idle → s.nextPins.rst = false → s.nextPins.cmdValid = true →
    w = CmdWord.of s.nextPins.cmdOp s.nextPins.cmdData →
    step s = exec (decode w) { s with pins := s.pins.tail }) ∧
  ∀ (s : State) (nbits w : Nat) (i : Instr), decodeTableWord nbits w = some i →
    step (s.withFetchWord nbits w) =
      exec i { s with line := false, phase := .idle, sym := 0, seg := 0, tick := 0, pins := s.pins.tail }

/-- R105: inside a segment only `tick` moves. -/
def Obligations.InsideASegmentOnlyTickMoves : Prop :=
  ∀ s : State, s.nextPins.rst = false → (s.phase = .frame1 ∨ s.phase = .frame2) →
    s.tick + 1 < segCycles Config.params s.seg →
    ∃ t, step s = .next t ∧ t.tick = s.tick + 1 ∧
      t.phase = s.phase ∧ t.sym = s.sym ∧ t.seg = s.seg ∧ t.line = s.line ∧ SameBuffer s t ∧ t.pins = s.pins.tail

/-- R106: the end of a segment within the frame. -/
def Obligations.EndOfSegmentMovesOn : Prop :=
  ∀ s : State, s.nextPins.rst = false → (s.phase = .frame1 ∨ s.phase = .frame2) →
    s.tick + 1 = segCycles Config.params s.seg → ¬(s.sym.val = 95 ∧ s.seg.val = 2) →
    ∃ t, step s = .next t ∧ t.tick = 0 ∧
      (s.seg.val < 2 → t.seg.val = s.seg.val + 1 ∧ t.sym = s.sym) ∧
      (s.seg.val = 2 → t.seg.val = 0 ∧ t.sym.val = s.sym.val + 1) ∧
      t.line = lvl (frameBit s.buf t.sym.val) t.seg ∧
      t.phase = s.phase ∧ SameBuffer s t ∧ t.pins = s.pins.tail

/-- R107: the end of a frame. -/
def Obligations.EndOfFrameGoesLow : Prop :=
  ∀ s : State, s.nextPins.rst = false → (s.phase = .frame1 ∨ s.phase = .frame2) →
    s.sym.val = 95 → s.seg.val = 2 → s.tick + 1 = segCycles Config.params s.seg →
    ∃ t, step s = .next t ∧ t.sym = 0 ∧ t.seg = 0 ∧ t.tick = 0 ∧ t.line = false ∧
      (s.phase = .frame1 → t.phase = .gap ∧ t.cmdReady = false) ∧
      (s.phase = .frame2 → t.phase = .idle ∧ t.busy = false ∧ t.cmdReady = true) ∧
      SameBuffer s t ∧ t.pins = s.pins.tail

/-- R108: the gap counts its cycles with the line as it is, then the second frame starts LOW. -/
def Obligations.GapThenSecondFrame : Prop :=
  ∀ s : State, s.nextPins.rst = false → s.phase = .gap →
    ∃ t, step s = .next t ∧ SameBuffer s t ∧ t.pins = s.pins.tail ∧
      (s.tick + 1 < gapCycles Config.params →
        t.tick = s.tick + 1 ∧ t.phase = .gap ∧ t.sym = s.sym ∧ t.seg = s.seg ∧ t.line = s.line) ∧
      (s.tick + 1 = gapCycles Config.params →
        t.phase = .frame2 ∧ t.sym = 0 ∧ t.seg = 0 ∧ t.tick = 0 ∧
        t.line = lvl (frameBit s.buf 0) 0 ∧ t.line = false)

/-- R100: the status outputs, and that a command presented while `cmd_ready = 0` changes nothing: the edge is the one
with no command at all. -/
def Obligations.CommandsHaveNoEffectWhileBusy : Prop :=
  ∀ (P : Config.Params) (p : Pins) (s : State),
    (s.cmdReady = true ↔ s.phase = .idle) ∧ (s.busy = true ↔ s.phase ≠ .idle) ∧
    (s.cmdReady = false → p.rst = false → s.accepts p = false ∧ edge P p s = edge P Pins.quiet s)

/-- The buffer is still while a SEND runs (R44, R94, R138): without reset, no byte and no read-back changes at an edge
outside IDLE. -/
def Obligations.BufferIsStableWhileBusy : Prop :=
  ∀ s : State, s.phase ≠ .idle → s.nextPins.rst = false →
    ∃ t, step s = .next t ∧ SameBuffer s t ∧ (∀ a : RdAddr, t.rdData a = s.rdData a) ∧
      ∀ k, frameBit t.buf k = frameBit s.buf k

/-- The block never transmits on its own (R95): it leaves IDLE only at an edge that accepts a SEND. -/
def Obligations.OnlyAnAcceptedSendLeavesIdle : Prop :=
  ∀ s t : State, s.phase = .idle → step s = .next t → t.phase ≠ .idle →
    s.accepts s.nextPins = true ∧ s.nextPins.command = .send ∧ t.phase = .frame1

/-- A SEND runs to its end unless reset (R96): without reset the phases follow each other in order, and IDLE comes only
after the last cycle of the second frame's last segment. In a state that breaks the invariant of R29 its `tick` may stand
beyond that cycle, which is the model's choice (log 5). -/
def Obligations.OnlyResetEndsASendEarly : Prop :=
  ∀ s t : State, s.nextPins.rst = false → step s = .next t →
    (s.phase = .frame1 → t.phase = .frame1 ∨ t.phase = .gap) ∧
    (s.phase = .gap → t.phase = .gap ∨ t.phase = .frame2) ∧
    (s.phase = .frame2 → t.phase = .frame2 ∨
      (t.phase = .idle ∧ s.sym.val = 95 ∧ s.seg.val = 2 ∧ segCycles Config.params 2 ≤ s.tick + 1 ∧
        (s.Inv Config.params → s.tick + 1 = segCycles Config.params 2)))

-- The machine as a whole

/-- R29's invariants, a rule the spec marks as derived, are kept by every step, from every state that meets them. -/
def Obligations.EveryStepKeepsTheInvariant : Prop :=
  ∀ s t : State, s.Inv Config.params → step s = .next t → t.Inv Config.params

/-- R29's invariants hold right after reset. -/
def Obligations.ResetMeetsTheInvariant : Prop := State.reset.Inv Config.params

/-- The machine never stops: every step, and every command in every state, answers a next state (R109 and R115,
rules the spec marks as derived). -/
def Obligations.EveryStepAnswersANextState : Prop :=
  (∀ s : State, ∃ t, step s = .next t) ∧ ∀ (i : Instr) (s : State), ∃ t, exec i s = .next t

/-- R34 and R40: the read-back port, in every state, and that it has no side effect: what an edge does is the same
whatever `rd_addr` is, and so is what a step does. -/
def Obligations.ReadBackShowsTheBuffer : Prop :=
  (∀ (s : State) (p : Pins),
    (∀ a : Addr, p.rdAddr.toNat = a.val → (s.outputs p).rdData = s.byte a) ∧
    (8 < p.rdAddr.toNat → (s.outputs p).rdData = 0x00)) ∧
  (∀ (P : Config.Params) (p : Pins) (s : State) (a : RdAddr), edge P { p with rdAddr := a } s = edge P p s) ∧
  ∀ (s : State) (p : Pins) (rest : List Pins) (a : RdAddr),
    step { s with pins := { p with rdAddr := a } :: rest } = step { s with pins := p :: rest }

/-- R109, a rule the spec marks as derived: the cycle level is the waveform of R92. After a SEND is accepted, with no
reset and whatever commands the host presents meanwhile, `line_out` in cycle c is the waveform's level at c div
TIME_CYCLES, and from cycle 784 × TIME_CYCLES the block is in IDLE with the line LOW until the next SEND. The last
line is that the machine is total. -/
def Obligations.CyclesRefineTheSendWaveform : Prop :=
  (∀ (s : State) (p : Pins) (rest : List Pins), s.phase = .idle → s.pins = p :: rest →
    p.rst = false → p.cmdValid = true → p.command = .send → (∀ q ∈ rest, q.rst = false) →
    ∃ u, exec .send s = .next u ∧
      (∀ c, c ≤ 784 * Config.params.timeCycles →
        ∃ t, Host.Core.run Sys2Proof.core (c + 1) s = .next t ∧
          t.line = levelAt (sendWave u.buf) (c / Config.params.timeCycles)) ∧
      ∀ c, 784 * Config.params.timeCycles ≤ c →
        (∀ j q, 784 * Config.params.timeCycles ≤ j → j < c → rest[j]? = some q →
          ¬(q.cmdValid = true ∧ q.command = .send)) →
        ∃ t, Host.Core.run Sys2Proof.core (c + 1) s = .next t ∧ t.phase = .idle ∧ t.line = false) ∧
  ∀ s : State, ∃ t, step s = .next t

/-- R110, a rule the spec marks as derived: `busy` and the phase in every cycle of a SEND, and that the next command
can be accepted at the edge that ends cycle 784 × TIME_CYCLES, not before. -/
def Obligations.SendIsBusyForItsExactLength : Prop :=
  ∀ (s : State) (p : Pins) (rest : List Pins), s.phase = .idle → s.pins = p :: rest →
    p.rst = false → p.cmdValid = true → p.command = .send → (∀ q ∈ rest, q.rst = false) →
    ∀ c, c ≤ 784 * Config.params.timeCycles →
      ∃ t, Host.Core.run Sys2Proof.core (c + 1) s = .next t ∧
        (t.busy = true ↔ c < 784 * Config.params.timeCycles) ∧
        (t.phase = .frame1 ↔ c < 384 * Config.params.timeCycles) ∧
        (t.phase = .gap ↔ 384 * Config.params.timeCycles ≤ c ∧ c < 400 * Config.params.timeCycles) ∧
        (t.phase = .frame2 ↔ 400 * Config.params.timeCycles ≤ c ∧ c < 784 * Config.params.timeCycles) ∧
        ∀ q : Pins, q.rst = false → q.cmdValid = true →
          (t.accepts q = true ↔ c = 784 * Config.params.timeCycles)

/-- The two levels agree for sequences of commands (R6, R42, R57): the host presents the words in order, each until it is
accepted, and after exactly the edges those commands take the block is in the state of their transaction-level
composition, in IDLE. -/
def Obligations.PresentedCommandsComposeInOrder : Prop :=
  ∀ (P : Config.Params) (s : State) (ws : List CmdWord), s.Inv P → s.phase = .idle →
    ∃ t waves, transactAll (ws.map decode) s = .next (t, waves) ∧ t.phase = .idle ∧
      Driver.run P ((ws.map (fun w => commandEdges P (decode w))).sum) ⟨ws, s⟩ = .next ⟨[], t⟩ ∧
      waves.length = (ws.map decode).count .send

-- The assembler

/-- R54's table: each command's operand range, its word as a number, and the refusal outside the range. SETTEMP's operand
is a literal, its range that of its value T in tenths (R55), and its word holds T in two's complement. -/
def Obligations.AssemblerKeepsToTheOperandRanges : Prop :=
  (∀ n, n ≤ 0xFFFF → ∃ i, assembleCmd (.setType n) = .ok [i] ∧ (encode i).toNat = n) ∧
  (∀ n, n ≤ 0xFF → ∃ i, assembleCmd (.setChannel n) = .ok [i] ∧ (encode i).toNat = 0x10000 + n) ∧
  (∀ n, n ≤ 0xFF → ∃ i, assembleCmd (.setId n) = .ok [i] ∧ (encode i).toNat = 0x20000 + n) ∧
  (∀ n, n ≤ 0xFF → ∃ i, assembleCmd (.setBattery n) = .ok [i] ∧ (encode i).toNat = 0x30000 + n) ∧
  (∀ (neg : Bool) (D : Nat) (F : List Nat) (T : Int), F.length ≤ 1 → F.headD 0 ≤ 9 →
    T = (if neg then -((D * 10 + F.headD 0 : Nat) : Int) else ((D * 10 + F.headD 0 : Nat) : Int)) →
    (-32768 ≤ T → T ≤ 32767 →
      ∃ i, assembleCmd (.setTemp ⟨neg, D, F⟩) = .ok [i] ∧ ((encode i).toNat : Int) = 0x40000 + T % 0x10000) ∧
    (T < -32768 ∨ 32767 < T → assembleCmd (.setTemp ⟨neg, D, F⟩) = .error .operandOutOfRange)) ∧
  (∀ n, n ≤ 0xFF → ∃ i, assembleCmd (.setHumidity n) = .ok [i] ∧ (encode i).toNat = 0x50000 + n) ∧
  (∃ i, assembleCmd .checksum = .ok [i] ∧ (encode i).toNat = 0x60000) ∧
  (∃ i, assembleCmd .send = .ok [i] ∧ (encode i).toNat = 0x70000) ∧
  (∀ n, 0xFFFF < n → assembleCmd (.setType n) = .error .operandOutOfRange) ∧
  ∀ n, 0xFF < n → assembleCmd (.setChannel n) = .error .operandOutOfRange ∧
    assembleCmd (.setId n) = .error .operandOutOfRange ∧
    assembleCmd (.setBattery n) = .error .operandOutOfRange ∧
    assembleCmd (.setHumidity n) = .error .operandOutOfRange

/-- R55: a literal's value in tenths is the operand SETTEMP reads back; two fractional digits are refused, and so is a
value outside −32768..32767. -/
def Obligations.TemperatureLiteralsAreTenths : Prop :=
  (∀ (neg : Bool) (D : Nat) (F : List Nat) (T : Int), F.length ≤ 1 → F.headD 0 ≤ 9 →
    T = (if neg then -((D * 10 + F.headD 0 : Nat) : Int) else ((D * 10 + F.headD 0 : Nat) : Int)) →
    (-32768 ≤ T → T ≤ 32767 → ∃ x : Operand, assembleCmd (.setTemp ⟨neg, D, F⟩) = .ok [.setTemp x] ∧ x.toInt = T) ∧
    (T < -32768 ∨ 32767 < T → assembleCmd (.setTemp ⟨neg, D, F⟩) = .error .operandOutOfRange)) ∧
  ∀ (neg : Bool) (D : Nat) (F : List Nat), 2 ≤ F.length →
    assembleCmd (.setTemp ⟨neg, D, F⟩) = .error .tooManyFractionDigits

/-- R56: the pseudo-commands expand to the commands shown, in the order shown, each assembled as it is on its own. -/
def Obligations.PseudoCommandsExpandInOrder : Prop :=
  (∀ t c i, t ≤ 0xFFFF → c ≤ 0xFF → i ≤ 0xFF → ∃ a b d,
    assembleCmd (.setType t) = .ok [a] ∧ assembleCmd (.setChannel c) = .ok [b] ∧ assembleCmd (.setId i) = .ok [d] ∧
    assembleCmd (.init t c i) = .ok [a, b, d]) ∧
  ∀ (l h : Nat) (x : TempLit), l ≤ 0xFF → h ≤ 0xFF → x.problem = none → ∃ a b d,
    assembleCmd (.setBattery l) = .ok [a] ∧ assembleCmd (.setTemp x) = .ok [b] ∧
    assembleCmd (.setHumidity h) = .ok [d] ∧ assembleCmd (.reading l x h) = .ok [a, b, d] ∧
    assembleCmd (.report l x h) = .ok [a, b, d, .send]
end

