-- ==== Sys2Proof/Laws/Memory.lean ====
section
/-! SUPPORT. The laws of the message buffer: a read after a write, and the canonical form kept. -/

namespace Sys2Proof.Machine

theorem Memory.lookup_erase (m : Memory) (a b : Nat) :
    (m.erase a).lookup b = if b = a then Memory.unlisted else m.lookup b := by
  induction m with
  | nil => simp [Memory.erase, Memory.lookup]
  | cons c rest ih =>
    simp only [Memory.erase] at ih
    by_cases hc : c.1 = a
    · subst hc
      by_cases hb : b = c.1
      · simpa [Memory.erase, hb] using ih
      · simpa [Memory.erase, Memory.lookup, hb, Ne.symm hb] using ih
    · by_cases hb : c.1 = b
      · subst hb
        simp [Memory.erase, Memory.lookup, hc]
      · simpa [Memory.erase, Memory.lookup, hc, hb] using ih

theorem Memory.lookup_insertCell (m : Memory) (a b : Nat) (v : Byte) (h : ∀ c ∈ m, c.1 ≠ a) :
    (m.insertCell a v).lookup b = if b = a then v else m.lookup b := by
  induction m with
  | nil =>
    by_cases hb : b = a
    · simp [Memory.insertCell, Memory.lookup, hb]
    · simp [Memory.insertCell, Memory.lookup, hb, Ne.symm hb]
  | cons c rest ih =>
    have hne : c.1 ≠ a := h c (by simp)
    have ih := ih (fun d hd => h d (by simp [hd]))
    unfold Memory.insertCell
    split
    · by_cases hb : b = a
      · simp [Memory.lookup, hb]
      · simp [Memory.lookup, hb, Ne.symm hb]
    · by_cases hc : c.1 = b
      · subst hc
        simp [Memory.lookup, hne]
      · simp [Memory.lookup, hc, ih]

/-- A read after a write: the value at the address written, the old byte elsewhere. -/
theorem Memory.read_write (m : Memory) (a b : Addr) (v : Byte) :
    (m.write a v).read b = if b = a then v else m.read b := by
  have hab : (b.val = a.val) = (b = a) := by simp [Fin.ext_iff]
  unfold Memory.write
  split
  · next hv => simp [Memory.read, Memory.lookup_erase, hab, hv]
  · have hmem : ∀ c ∈ m.erase a.val, c.1 ≠ a.val := by simp [Memory.erase]
    simp only [Memory.read, Memory.lookup_insertCell _ _ _ _ hmem, Memory.lookup_erase, hab]
    split <;> rfl

theorem Memory.wfFrom_mono {m : Memory} {lo lo' : Nat} (h : lo' ≤ lo) (hm : Memory.wfFrom lo m = true) :
    Memory.wfFrom lo' m = true := by
  cases m with
  | nil => rfl
  | cons c rest =>
    simp only [Memory.wfFrom, Bool.and_eq_true, decide_eq_true_eq] at hm ⊢
    exact ⟨⟨⟨by omega, hm.1.1.2⟩, hm.1.2⟩, hm.2⟩

theorem Memory.wfFrom_erase (m : Memory) (a lo : Nat) (hm : Memory.wfFrom lo m = true) :
    Memory.wfFrom lo (m.erase a) = true := by
  induction m generalizing lo with
  | nil => rfl
  | cons c rest ih =>
    simp only [Memory.wfFrom, Bool.and_eq_true, decide_eq_true_eq] at hm
    have hrest := ih _ hm.2
    simp only [Memory.erase] at hrest ⊢
    by_cases hc : c.1 = a
    · rw [List.filter_cons_of_neg (by simp [hc])]
      exact Memory.wfFrom_mono (by omega) hrest
    · rw [List.filter_cons_of_pos (by simp [hc])]
      simp only [Memory.wfFrom, Bool.and_eq_true, decide_eq_true_eq]
      exact ⟨hm.1, hrest⟩

theorem Memory.wfFrom_insertCell (m : Memory) (a lo : Nat) (v : Byte) (hlo : lo ≤ a) (ha : a < Config.msgLen)
    (hv : v ≠ Memory.unlisted) (hne : ∀ c ∈ m, c.1 ≠ a) (hm : Memory.wfFrom lo m = true) :
    Memory.wfFrom lo (m.insertCell a v) = true := by
  induction m generalizing lo with
  | nil => simp [Memory.insertCell, Memory.wfFrom, hlo, ha, hv]
  | cons c rest ih =>
    have hca : c.1 ≠ a := hne c (by simp)
    simp only [Memory.wfFrom, Bool.and_eq_true, decide_eq_true_eq] at hm
    unfold Memory.insertCell
    split
    · next hlt =>
      simp only [Memory.wfFrom, Bool.and_eq_true, decide_eq_true_eq]
      exact ⟨⟨⟨hlo, ha⟩, hv⟩, ⟨⟨by omega, hm.1.1.2⟩, hm.1.2⟩, hm.2⟩
    · simp only [Memory.wfFrom, Bool.and_eq_true, decide_eq_true_eq]
      exact ⟨hm.1, ih _ (by omega) (fun d hd => hne d (by simp [hd])) hm.2⟩

/-- Every write keeps the canonical form. -/
theorem Memory.write_wf (m : Memory) (a : Addr) (v : Byte) (hm : m.wf = true) : (m.write a v).wf = true := by
  unfold Memory.write
  split
  · exact Memory.wfFrom_erase _ _ _ hm
  · next hv =>
    exact Memory.wfFrom_insertCell _ _ _ _ (Nat.zero_le _) a.isLt hv (by simp [Memory.erase])
      (Memory.wfFrom_erase _ _ _ hm)

/-- The buffer after reset is in canonical form. -/
theorem Memory.afterReset_wf (P : Config.Params) : (Memory.afterReset P).wf = true := by
  unfold Memory.afterReset
  exact Memory.write_wf _ _ _ (Memory.write_wf _ _ _ (Memory.write_wf _ _ _ (Memory.write_wf _ _ _ rfl)))

/-- The bytes of the buffer after reset (R30). -/
theorem Memory.afterReset_read (P : Config.Params) (a : Addr) :
    (Memory.afterReset P).read a =
      if a = 0 then P.resetType.extractLsb' 8 8 else if a = 1 then P.resetType.extractLsb' 0 8
      else if a = 2 then P.resetChannel else if a = 3 then P.resetId else 0x00 := by
  simp only [Memory.afterReset, Memory.read_write]
  rfl

theorem Memory.lookup_eq_unlisted {m : Memory} {lo a : Nat} (hm : Memory.wfFrom lo m = true) (ha : a < lo) :
    m.lookup a = Memory.unlisted := by
  induction m generalizing lo with
  | nil => rfl
  | cons c rest ih =>
    simp only [Memory.wfFrom, Bool.and_eq_true, decide_eq_true_eq] at hm
    have : c.1 ≠ a := by omega
    simp [Memory.lookup, this, ih hm.2 (by omega)]

theorem Memory.wfFrom_ext {m n : Memory} {lo : Nat} (hm : Memory.wfFrom lo m = true) (hn : Memory.wfFrom lo n = true)
    (h : ∀ a, m.lookup a = n.lookup a) : m = n := by
  induction m generalizing n lo with
  | nil =>
    cases n with
    | nil => rfl
    | cons c rest =>
      simp only [Memory.wfFrom, Bool.and_eq_true, decide_eq_true_eq] at hn
      exact absurd (h c.1).symm (by simpa [Memory.lookup] using hn.1.2)
  | cons c rest ih =>
    simp only [Memory.wfFrom, Bool.and_eq_true, decide_eq_true_eq] at hm
    cases n with
    | nil => exact absurd (h c.1) (by simpa [Memory.lookup] using hm.1.2)
    | cons d rest' =>
      simp only [Memory.wfFrom, Bool.and_eq_true, decide_eq_true_eq] at hn
      have hcd : c.1 = d.1 := by
        rcases Nat.lt_trichotomy c.1 d.1 with hlt | heq | hlt
        · have h1 := h c.1
          rw [Memory.lookup_eq_unlisted (m := d :: rest') (lo := d.1)
            (by simp [Memory.wfFrom, hn.1.1.2, hn.1.2, hn.2]) hlt] at h1
          exact absurd h1 (by simpa [Memory.lookup] using hm.1.2)
        · exact heq
        · have h1 := h d.1
          rw [Memory.lookup_eq_unlisted (m := c :: rest) (lo := c.1)
            (by simp [Memory.wfFrom, hm.1.1.2, hm.1.2, hm.2]) hlt] at h1
          exact absurd h1.symm (by simpa [Memory.lookup] using hn.1.2)
      have hv : c.2 = d.2 := by simpa [Memory.lookup, hcd] using h c.1
      have hrest : rest = rest' := by
        refine ih (lo := c.1 + 1) hm.2 (hcd ▸ hn.2) (fun a => ?_)
        by_cases ha : c.1 = a
        · subst ha
          rw [Memory.lookup_eq_unlisted hm.2 (by omega), Memory.lookup_eq_unlisted (lo := d.1 + 1) hn.2 (by omega)]
        · have := h a
          simpa [Memory.lookup, ha, ← hcd] using this
      rw [hrest, Prod.ext hcd hv]

theorem Memory.lookup_high {m : Memory} {lo a : Nat} (hm : Memory.wfFrom lo m = true) (ha : Config.msgLen ≤ a) :
    m.lookup a = Memory.unlisted := by
  induction m generalizing lo with
  | nil => rfl
  | cons c rest ih =>
    simp only [Memory.wfFrom, Bool.and_eq_true, decide_eq_true_eq] at hm
    have : c.1 ≠ a := by omega
    simp [Memory.lookup, this, ih hm.2]

/-- Equal buffers are equal data: two canonical forms that read alike are one list. -/
theorem Memory.ext_of_wf {m n : Memory} (hm : m.wf = true) (hn : n.wf = true) (h : ∀ a : Addr, m.read a = n.read a) :
    m = n := by
  refine Memory.wfFrom_ext hm hn (fun a => ?_)
  by_cases ha : a < Config.msgLen
  · exact h ⟨a, ha⟩
  · rw [Memory.lookup_high hm (by omega), Memory.lookup_high hn (by omega)]

/-- The buffer's bytes, one by one. -/
theorem Memory.bytes_eq (m : Memory) :
    m.bytes = [m.read 0, m.read 1, m.read 2, m.read 3, m.read 4, m.read 5, m.read 6, m.read 7, m.read 8] := rfl

end Sys2Proof.Machine
end

