-- ==== Sys2Proof/Laws/State.lean ====
section
/-! SUPPORT. One lemma per field per update of State, and what each named operation does to a byte. -/

namespace Sys2Proof.Machine

@[simp] theorem State.setByte_buf (s : State) (a : Addr) (v : Byte) : (s.setByte a v).buf = s.buf.write a v := rfl
@[simp] theorem State.setByte_line (s : State) (a : Addr) (v : Byte) : (s.setByte a v).line = s.line := rfl
@[simp] theorem State.setByte_phase (s : State) (a : Addr) (v : Byte) : (s.setByte a v).phase = s.phase := rfl
@[simp] theorem State.setByte_sym (s : State) (a : Addr) (v : Byte) : (s.setByte a v).sym = s.sym := rfl
@[simp] theorem State.setByte_seg (s : State) (a : Addr) (v : Byte) : (s.setByte a v).seg = s.seg := rfl
@[simp] theorem State.setByte_tick (s : State) (a : Addr) (v : Byte) : (s.setByte a v).tick = s.tick := rfl
@[simp] theorem State.setByte_pins (s : State) (a : Addr) (v : Byte) : (s.setByte a v).pins = s.pins := rfl

@[simp] theorem State.orByte_buf (s : State) (a : Addr) (v : Byte) : (s.orByte a v).buf = s.buf.write a (s.byte a ||| v) := rfl
@[simp] theorem State.orByte_line (s : State) (a : Addr) (v : Byte) : (s.orByte a v).line = s.line := rfl
@[simp] theorem State.orByte_phase (s : State) (a : Addr) (v : Byte) : (s.orByte a v).phase = s.phase := rfl
@[simp] theorem State.orByte_sym (s : State) (a : Addr) (v : Byte) : (s.orByte a v).sym = s.sym := rfl
@[simp] theorem State.orByte_seg (s : State) (a : Addr) (v : Byte) : (s.orByte a v).seg = s.seg := rfl
@[simp] theorem State.orByte_tick (s : State) (a : Addr) (v : Byte) : (s.orByte a v).tick = s.tick := rfl
@[simp] theorem State.orByte_pins (s : State) (a : Addr) (v : Byte) : (s.orByte a v).pins = s.pins := rfl

@[simp] theorem State.storeChecksum_buf (s : State) : (s.storeChecksum).buf = s.buf.write 8 (chk s.buf) := by
  simp only [State.storeChecksum, State.setByte_buf]
@[simp] theorem State.storeChecksum_line (s : State) : (s.storeChecksum).line = s.line :=
  State.setByte_line s 8 (chk s.buf)
@[simp] theorem State.storeChecksum_phase (s : State) : (s.storeChecksum).phase = s.phase :=
  State.setByte_phase s 8 (chk s.buf)
@[simp] theorem State.storeChecksum_sym (s : State) : (s.storeChecksum).sym = s.sym :=
  State.setByte_sym s 8 (chk s.buf)
@[simp] theorem State.storeChecksum_seg (s : State) : (s.storeChecksum).seg = s.seg :=
  State.setByte_seg s 8 (chk s.buf)
@[simp] theorem State.storeChecksum_tick (s : State) : (s.storeChecksum).tick = s.tick :=
  State.setByte_tick s 8 (chk s.buf)
@[simp] theorem State.storeChecksum_pins (s : State) : (s.storeChecksum).pins = s.pins :=
  State.setByte_pins s 8 (chk s.buf)

@[simp] theorem State.setPosition_buf (s : State) (ph : Phase) (k : Sym) (g : Seg) (l : Bool) : (s.setPosition ph k g l).buf = s.buf := rfl
@[simp] theorem State.setPosition_line (s : State) (ph : Phase) (k : Sym) (g : Seg) (l : Bool) : (s.setPosition ph k g l).line = l := rfl
@[simp] theorem State.setPosition_phase (s : State) (ph : Phase) (k : Sym) (g : Seg) (l : Bool) : (s.setPosition ph k g l).phase = ph := rfl
@[simp] theorem State.setPosition_sym (s : State) (ph : Phase) (k : Sym) (g : Seg) (l : Bool) : (s.setPosition ph k g l).sym = k := rfl
@[simp] theorem State.setPosition_seg (s : State) (ph : Phase) (k : Sym) (g : Seg) (l : Bool) : (s.setPosition ph k g l).seg = g := rfl
@[simp] theorem State.setPosition_tick (s : State) (ph : Phase) (k : Sym) (g : Seg) (l : Bool) : (s.setPosition ph k g l).tick = 0 := rfl
@[simp] theorem State.setPosition_pins (s : State) (ph : Phase) (k : Sym) (g : Seg) (l : Bool) : (s.setPosition ph k g l).pins = s.pins := rfl

@[simp] theorem State.tickOn_buf (s : State) : (s.tickOn).buf = s.buf := rfl
@[simp] theorem State.tickOn_line (s : State) : (s.tickOn).line = s.line := rfl
@[simp] theorem State.tickOn_phase (s : State) : (s.tickOn).phase = s.phase := rfl
@[simp] theorem State.tickOn_sym (s : State) : (s.tickOn).sym = s.sym := rfl
@[simp] theorem State.tickOn_seg (s : State) : (s.tickOn).seg = s.seg := rfl
@[simp] theorem State.tickOn_tick (s : State) : (s.tickOn).tick = s.tick + 1 := rfl
@[simp] theorem State.tickOn_pins (s : State) : (s.tickOn).pins = s.pins := rfl

@[simp] theorem State.settle_buf (s : State) : (s.settle).buf = s.buf := rfl
@[simp] theorem State.settle_line (s : State) : (s.settle).line = false := rfl
@[simp] theorem State.settle_phase (s : State) : (s.settle).phase = .idle := rfl
@[simp] theorem State.settle_sym (s : State) : (s.settle).sym = 0 := rfl
@[simp] theorem State.settle_seg (s : State) : (s.settle).seg = 0 := rfl
@[simp] theorem State.settle_tick (s : State) : (s.settle).tick = 0 := rfl
@[simp] theorem State.settle_pins (s : State) : (s.settle).pins = s.pins := rfl

@[simp] theorem State.setPins_buf (s : State) (ps : List Pins) : (s.setPins ps).buf = s.buf := rfl
@[simp] theorem State.setPins_line (s : State) (ps : List Pins) : (s.setPins ps).line = s.line := rfl
@[simp] theorem State.setPins_phase (s : State) (ps : List Pins) : (s.setPins ps).phase = s.phase := rfl
@[simp] theorem State.setPins_sym (s : State) (ps : List Pins) : (s.setPins ps).sym = s.sym := rfl
@[simp] theorem State.setPins_seg (s : State) (ps : List Pins) : (s.setPins ps).seg = s.seg := rfl
@[simp] theorem State.setPins_tick (s : State) (ps : List Pins) : (s.setPins ps).tick = s.tick := rfl
@[simp] theorem State.setPins_pins (s : State) (ps : List Pins) : (s.setPins ps).pins = ps := rfl

@[simp] theorem State.dropPins_buf (s : State) : (s.dropPins).buf = s.buf := rfl
@[simp] theorem State.dropPins_line (s : State) : (s.dropPins).line = s.line := rfl
@[simp] theorem State.dropPins_phase (s : State) : (s.dropPins).phase = s.phase := rfl
@[simp] theorem State.dropPins_sym (s : State) : (s.dropPins).sym = s.sym := rfl
@[simp] theorem State.dropPins_seg (s : State) : (s.dropPins).seg = s.seg := rfl
@[simp] theorem State.dropPins_tick (s : State) : (s.dropPins).tick = s.tick := rfl
@[simp] theorem State.dropPins_pins (s : State) : (s.dropPins).pins = s.pins.tail := rfl

@[simp] theorem State.resetEdge_buf (s : State) (P : Config.Params) : (s.resetEdge P).buf = Memory.afterReset P := rfl
@[simp] theorem State.resetEdge_line (s : State) (P : Config.Params) : (s.resetEdge P).line = false := rfl
@[simp] theorem State.resetEdge_phase (s : State) (P : Config.Params) : (s.resetEdge P).phase = .idle := rfl
@[simp] theorem State.resetEdge_sym (s : State) (P : Config.Params) : (s.resetEdge P).sym = 0 := rfl
@[simp] theorem State.resetEdge_seg (s : State) (P : Config.Params) : (s.resetEdge P).seg = 0 := rfl
@[simp] theorem State.resetEdge_tick (s : State) (P : Config.Params) : (s.resetEdge P).tick = 0 := rfl
@[simp] theorem State.resetEdge_pins (s : State) (P : Config.Params) : (s.resetEdge P).pins = s.pins := rfl

@[simp] theorem State.startFrame_buf (s : State) (ph : Phase) : (s.startFrame ph).buf = s.buf := rfl
@[simp] theorem State.startFrame_line (s : State) (ph : Phase) : (s.startFrame ph).line = drivenLevel s.buf 0 0 := rfl
@[simp] theorem State.startFrame_phase (s : State) (ph : Phase) : (s.startFrame ph).phase = ph := rfl
@[simp] theorem State.startFrame_sym (s : State) (ph : Phase) : (s.startFrame ph).sym = 0 := rfl
@[simp] theorem State.startFrame_seg (s : State) (ph : Phase) : (s.startFrame ph).seg = 0 := rfl
@[simp] theorem State.startFrame_tick (s : State) (ph : Phase) : (s.startFrame ph).tick = 0 := rfl
@[simp] theorem State.startFrame_pins (s : State) (ph : Phase) : (s.startFrame ph).pins = s.pins := rfl

@[simp] theorem State.endFrame_buf (s : State) : (s.endFrame).buf = s.buf := rfl
@[simp] theorem State.endFrame_line (s : State) : (s.endFrame).line = false := rfl
@[simp] theorem State.endFrame_phase (s : State) : (s.endFrame).phase = if s.phase = .frame1 then .gap else .idle := rfl
@[simp] theorem State.endFrame_sym (s : State) : (s.endFrame).sym = 0 := rfl
@[simp] theorem State.endFrame_seg (s : State) : (s.endFrame).seg = 0 := rfl
@[simp] theorem State.endFrame_tick (s : State) : (s.endFrame).tick = 0 := rfl
@[simp] theorem State.endFrame_pins (s : State) : (s.endFrame).pins = s.pins := rfl

@[simp] theorem State.nextSegment_buf (s : State) : (s.nextSegment).buf = s.buf := rfl
@[simp] theorem State.nextSegment_line (s : State) : (s.nextSegment).line = drivenLevel s.buf (if s.seg = lastSeg then s.sym + 1 else s.sym) (if s.seg = lastSeg then 0 else s.seg + 1) := rfl
@[simp] theorem State.nextSegment_phase (s : State) : (s.nextSegment).phase = s.phase := rfl
@[simp] theorem State.nextSegment_sym (s : State) : (s.nextSegment).sym = if s.seg = lastSeg then s.sym + 1 else s.sym := rfl
@[simp] theorem State.nextSegment_seg (s : State) : (s.nextSegment).seg = if s.seg = lastSeg then 0 else s.seg + 1 := rfl
@[simp] theorem State.nextSegment_tick (s : State) : (s.nextSegment).tick = 0 := rfl
@[simp] theorem State.nextSegment_pins (s : State) : (s.nextSegment).pins = s.pins := rfl

/-- What a byte reads as after one byte is written. -/
@[simp] theorem State.setByte_byte (s : State) (a b : Addr) (v : Byte) :
    (s.setByte a v).byte b = if b = a then v else s.byte b :=
  Memory.read_write s.buf a b v

@[simp] theorem State.orByte_byte (s : State) (a b : Addr) (v : Byte) :
    (s.orByte a v).byte b = if b = a then s.byte a ||| v else s.byte b :=
  Memory.read_write s.buf a b _

@[simp] theorem State.storeChecksum_byte (s : State) (b : Addr) :
    s.storeChecksum.byte b = if b = 8 then chk s.buf else s.byte b :=
  Memory.read_write s.buf 8 b _

/-- A byte depends on the buffer alone. -/
theorem State.byte_congr {s t : State} (h : t.buf = s.buf) (a : Addr) : t.byte a = s.byte a := by
  simp [State.byte, h]

@[simp] theorem State.setPosition_byte (s : State) (ph : Phase) (k : Sym) (g : Seg) (l : Bool) (a : Addr) :
    (s.setPosition ph k g l).byte a = s.byte a := rfl

@[simp] theorem State.tickOn_byte (s : State) (a : Addr) : s.tickOn.byte a = s.byte a := rfl

@[simp] theorem State.settle_byte (s : State) (a : Addr) : s.settle.byte a = s.byte a := rfl

@[simp] theorem State.setPins_byte (s : State) (ps : List Pins) (a : Addr) : (s.setPins ps).byte a = s.byte a := rfl

@[simp] theorem State.dropPins_byte (s : State) (a : Addr) : s.dropPins.byte a = s.byte a := rfl

@[simp] theorem State.startFrame_byte (s : State) (ph : Phase) (a : Addr) : (s.startFrame ph).byte a = s.byte a := rfl

@[simp] theorem State.endFrame_byte (s : State) (a : Addr) : s.endFrame.byte a = s.byte a := rfl

@[simp] theorem State.nextSegment_byte (s : State) (a : Addr) : s.nextSegment.byte a = s.byte a := rfl

end Sys2Proof.Machine
end

