-- ==== Sys2Proof/Laws/Exec.lean ====
section
/-! SUPPORT. What each meaning and each edge answers, said once over the named operations. -/

namespace Sys2Proof.Machine

theorem exec_setType (t : Operand) (s : State) :
    exec (.setType t) s = .next ((s.setByte 0 (typeFirst t)).setByte 1 (typeSecond t)) := rfl

theorem exec_setChannel (c : Byte) (s : State) : exec (.setChannel c) s = .next (s.setByte 2 c) := rfl

theorem exec_setId (i : Byte) (s : State) : exec (.setId i) s = .next (s.setByte 3 i) := rfl

theorem exec_setBattery (l : Byte) (s : State) : exec (.setBattery l) s = .next (s.setByte 4 (batteryCode l)) := rfl

theorem exec_setTemp (x : Operand) (s : State) :
    exec (.setTemp x) s =
      .next (((s.setByte 6 (signCode x)).setByte 5 (tempDigitsByte x)).orByte 4 (digitHigh (tempTenths x))) := rfl

theorem exec_setHumidity (h : Byte) (s : State) :
    exec (.setHumidity h) s = .next ((s.setByte 7 (u8 (humTens h))).orByte 6 (digitHigh (humUnits h))) := rfl

theorem exec_checksum (s : State) : exec .checksum s = .next s.storeChecksum := rfl

theorem exec_send (s : State) : exec .send s = .next (s.storeChecksum.startFrame .frame1) := rfl

theorem step_eq_edge (s : State) : step s = edge Config.params s.nextPins s.dropPins := rfl

theorem edge_of_rst (P : Config.Params) (p : Pins) (s : State) (h : p.rst = true) :
    edge P p s = .next (s.resetEdge P) := by simp [edge, h]

theorem edge_of_idle (P : Config.Params) (p : Pins) (s : State) (h : p.rst = false) (hs : s.phase = .idle) :
    edge P p s = if p.cmdValid then exec p.command s else .next s := by simp [edge, h, hs]

theorem edge_of_frame (P : Config.Params) (p : Pins) (s : State) (h : p.rst = false)
    (hs : s.phase = .frame1 ∨ s.phase = .frame2) : edge P p s = .next (s.frameEdge P) := by
  rcases hs with hs | hs <;> simp [edge, h, hs]

theorem edge_of_gap (P : Config.Params) (p : Pins) (s : State) (h : p.rst = false) (hs : s.phase = .gap) :
    edge P p s = .next (s.gapEdge P) := by simp [edge, h, hs]

/-- TIME_CYCLES is at least 1 (R7). -/
theorem timeCycles_pos (P : Config.Params) : 0 < P.timeCycles := Nat.succ_pos _

/-- A segment lasts at least one cycle (R98). -/
theorem segCycles_pos (P : Config.Params) (g : Seg) : 0 < segCycles P g := by
  have h : 0 < dur g := by revert g; decide
  exact Nat.mul_pos h (timeCycles_pos P)

/-- The gap lasts at least one cycle (R98). -/
theorem gapCycles_pos (P : Config.Params) : 0 < gapCycles P :=
  Nat.mul_pos (by decide) (timeCycles_pos P)

/-- Symbol 0 is a preamble one bit, whose first segment is LOW (R80, R104). -/
theorem drivenLevel_start (m : Memory) : drivenLevel m 0 0 = false := by
  simp [drivenLevel, frameBit, frameBytes, Config.preamble, lvl]

end Sys2Proof.Machine
end

