-- ==== Sys2Proof/Laws/Edge.lean ====
section
/-! SUPPORT. Everything an edge can do, said once, and what every command and every edge does to the buffer. -/

namespace Sys2Proof.Machine

/-- The state a command leaves. -/
def execResult : Instr → State → State
  | .setType t, s => (s.setByte 0 (typeFirst t)).setByte 1 (typeSecond t)
  | .setChannel c, s => s.setByte 2 c
  | .setId i, s => s.setByte 3 i
  | .setBattery l, s => s.setByte 4 (batteryCode l)
  | .setTemp x, s => ((s.setByte 6 (signCode x)).setByte 5 (tempDigitsByte x)).orByte 4 (digitHigh (tempTenths x))
  | .setHumidity h, s => (s.setByte 7 (u8 (humTens h))).orByte 6 (digitHigh (humUnits h))
  | .checksum, s => s.storeChecksum
  | .send, s => s.storeChecksum.startFrame .frame1

theorem exec_eq_execResult (i : Instr) (s : State) : exec i s = .next (execResult i s) := by
  cases i <;> rfl

theorem execResult_of_exec {i : Instr} {s t : State} (h : exec i s = .next t) : t = execResult i s := by
  rw [exec_eq_execResult] at h
  exact (Host.Outcome.next.inj h).symm

/-- A command keeps the buffer's canonical form. -/
theorem execResult_wf (i : Instr) (s : State) (h : s.buf.wf = true) : (execResult i s).buf.wf = true := by
  have hw : ∀ (m : Memory) (a : Addr) (v : Byte), m.wf = true → (m.write a v).wf = true := Memory.write_wf
  cases i <;> simp [execResult, hw _ _ _ (hw _ _ _ (hw _ _ _ h)), hw _ _ _ (hw _ _ _ h), hw _ _ _ h]

/-- What an edge can do: reset, rest, run the presented command, move within the frame, or move in the gap. -/
theorem edge_cases {P : Config.Params} {p : Pins} {s t : State} (h : edge P p s = .next t) :
    (p.rst = true ∧ t = s.resetEdge P) ∨
    (p.rst = false ∧ s.phase = .idle ∧ p.cmdValid = false ∧ t = s) ∨
    (p.rst = false ∧ s.phase = .idle ∧ p.cmdValid = true ∧ t = execResult p.command s) ∨
    (p.rst = false ∧ (s.phase = .frame1 ∨ s.phase = .frame2) ∧ t = s.frameEdge P) ∨
    (p.rst = false ∧ s.phase = .gap ∧ t = s.gapEdge P) := by
  cases hr : p.rst with
  | true =>
    rw [edge_of_rst P p s hr] at h
    exact .inl ⟨rfl, (Host.Outcome.next.inj h).symm⟩
  | false =>
    cases hp : s.phase with
    | idle =>
      rw [edge_of_idle P p s hr hp] at h
      cases hv : p.cmdValid with
      | true =>
        rw [hv, if_pos rfl] at h
        exact .inr (.inr (.inl ⟨rfl, rfl, rfl, execResult_of_exec h⟩))
      | false =>
        rw [hv, if_neg (by decide)] at h
        exact .inr (.inl ⟨rfl, rfl, rfl, (Host.Outcome.next.inj h).symm⟩)
    | frame1 =>
      rw [edge_of_frame P p s hr (.inl hp)] at h
      exact .inr (.inr (.inr (.inl ⟨rfl, .inl rfl, (Host.Outcome.next.inj h).symm⟩)))
    | frame2 =>
      rw [edge_of_frame P p s hr (.inr hp)] at h
      exact .inr (.inr (.inr (.inl ⟨rfl, .inr rfl, (Host.Outcome.next.inj h).symm⟩)))
    | gap =>
      rw [edge_of_gap P p s hr hp] at h
      exact .inr (.inr (.inr (.inr ⟨rfl, rfl, (Host.Outcome.next.inj h).symm⟩)))

theorem step_of_rst (s : State) (h : s.nextPins.rst = true) : step s = .next (s.dropPins.resetEdge Config.params) :=
  edge_of_rst _ _ s.dropPins h

theorem step_of_idle (s : State) (h : s.nextPins.rst = false) (hs : s.phase = .idle) :
    step s = if s.nextPins.cmdValid then exec s.nextPins.command s.dropPins else .next s.dropPins :=
  edge_of_idle _ _ s.dropPins h hs

theorem step_of_frame (s : State) (h : s.nextPins.rst = false) (hs : s.phase = .frame1 ∨ s.phase = .frame2) :
    step s = .next (s.dropPins.frameEdge Config.params) :=
  edge_of_frame _ _ s.dropPins h hs

theorem step_of_gap (s : State) (h : s.nextPins.rst = false) (hs : s.phase = .gap) :
    step s = .next (s.dropPins.gapEdge Config.params) :=
  edge_of_gap _ _ s.dropPins h hs

/-- What an edge in a frame can do (R105 to R107). -/
theorem frameEdge_cases (P : Config.Params) (s : State) :
    (s.tick + 1 < segCycles P s.seg ∧ s.frameEdge P = s.tickOn) ∨
    (segCycles P s.seg ≤ s.tick + 1 ∧ s.sym = lastSym ∧ s.seg = lastSeg ∧ s.frameEdge P = s.endFrame) ∨
    (segCycles P s.seg ≤ s.tick + 1 ∧ ¬(s.sym = lastSym ∧ s.seg = lastSeg) ∧ s.frameEdge P = s.nextSegment) := by
  unfold State.frameEdge
  by_cases ht : s.tick + 1 < segCycles P s.seg
  · simp [ht]
  · by_cases hl : s.sym = lastSym ∧ s.seg = lastSeg
    · exact .inr (.inl ⟨Nat.le_of_not_lt ht, hl.1, hl.2, by rw [if_neg ht, if_pos hl]⟩)
    · simp [ht, hl, Nat.le_of_not_lt ht]

/-- What an edge in the gap can do (R108). -/
theorem gapEdge_cases (P : Config.Params) (s : State) :
    (s.tick + 1 < gapCycles P ∧ s.gapEdge P = s.tickOn) ∨
    (gapCycles P ≤ s.tick + 1 ∧ s.gapEdge P = s.startFrame .frame2) := by
  unfold State.gapEdge
  by_cases ht : s.tick + 1 < gapCycles P
  · simp [ht]
  · simp [ht, Nat.le_of_not_lt ht]

@[simp] theorem State.frameEdge_buf (P : Config.Params) (s : State) : (s.frameEdge P).buf = s.buf := by
  rcases frameEdge_cases P s with ⟨-, h⟩ | ⟨-, -, -, h⟩ | ⟨-, -, h⟩ <;> rw [h] <;> rfl

@[simp] theorem State.gapEdge_buf (P : Config.Params) (s : State) : (s.gapEdge P).buf = s.buf := by
  rcases gapEdge_cases P s with ⟨-, h⟩ | ⟨-, h⟩ <;> rw [h] <;> rfl

@[simp] theorem State.frameEdge_pins (P : Config.Params) (s : State) : (s.frameEdge P).pins = s.pins := by
  rcases frameEdge_cases P s with ⟨-, h⟩ | ⟨-, -, -, h⟩ | ⟨-, -, h⟩ <;> rw [h] <;> rfl

@[simp] theorem State.gapEdge_pins (P : Config.Params) (s : State) : (s.gapEdge P).pins = s.pins := by
  rcases gapEdge_cases P s with ⟨-, h⟩ | ⟨-, h⟩ <;> rw [h] <;> rfl

@[simp] theorem execResult_pins (i : Instr) (s : State) : (execResult i s).pins = s.pins := by
  cases i <;> rfl

end Sys2Proof.Machine
end

