-- ==== Sys2Proof/Laws/Operands.lean ====
section
/-! SUPPORT. Nibbles, digits, the sum they make, and a command word's fields. -/

namespace Sys2Proof.Machine

theorem op_of (op : Opcode) (data : Operand) : (CmdWord.of op data).op = op := by
  simp only [CmdWord.of, CmdWord.op]
  exact BitVec.extractLsb'_append_eq_left

theorem data_of (op : Opcode) (data : Operand) : (CmdWord.of op data).data = data := by
  simp only [CmdWord.of, CmdWord.data]
  exact BitVec.extractLsb'_append_eq_right

theorem highNibble_toNat (b : Byte) : (highNibble b).toNat = b.toNat / 16 := by
  have := b.isLt
  simp [highNibble, Nat.shiftRight_eq_div_pow]
  omega

theorem lowNibble_toNat (b : Byte) : (lowNibble b).toNat = b.toNat % 16 := by
  simp [lowNibble]

theorem highNibble_or (a b : Byte) : highNibble (a ||| b) = highNibble a ||| highNibble b := by
  simp [highNibble, BitVec.extractLsb'_or]

theorem lowNibble_or (a b : Byte) : lowNibble (a ||| b) = lowNibble a ||| lowNibble b := by
  simp [lowNibble, BitVec.extractLsb'_or]

/-- A digit ORed into a high nibble (R65, R68). -/
theorem highNibble_digitHigh (d : Nat) : highNibble (digitHigh d) = BitVec.ofNat 4 d := by
  apply BitVec.eq_of_toNat_eq
  rw [highNibble_toNat]
  simp [digitHigh, u8, Nat.shiftLeft_eq]
  omega

/-- It leaves the low nibble alone. -/
theorem lowNibble_digitHigh (d : Nat) : lowNibble (digitHigh d) = 0 := by
  apply BitVec.eq_of_toNat_eq
  rw [lowNibble_toNat]
  simp [digitHigh, u8, Nat.shiftLeft_eq]

/-- Byte 5 as a number: the tens and units digits, cut to a byte (R66). -/
theorem tempDigitsByte_toNat (x : Operand) : (tempDigitsByte x).toNat = (16 * tempTens x + tempUnits x) % 256 := by
  have hu : tempUnits x < 2 ^ 4 := by
    unfold tempUnits
    omega
  rw [tempDigitsByte, ← Nat.shiftLeft_add_eq_or_of_lt hu, Nat.shiftLeft_eq, Nat.mul_comm]
  simp [u8]

theorem nibbleSum_eq (b : Byte) : nibbleSum b = b.toNat / 16 + b.toNat % 16 := by
  rw [nibbleSum, highNibble_toNat, lowNibble_toNat]

/-- The sum the checksum uses, byte by byte (R72, R76). -/
theorem nsum_chkCount (m : Memory) : nsum m Config.chkCount =
    (([0, 1, 2, 3, 4, 5, 6, 7] : List Addr).map (fun a => nibbleSum (m.read a))).sum := by
  rw [nsum, Memory.bytes_eq]
  simp only [List.take_succ_cons, List.take_zero, List.map_cons, List.map_nil]

end Sys2Proof.Machine
end

