-- ==== Sys2Proof/Laws/PerInstr.lean ====
section
/-! SUPPORT. Laws made command by command, about the command as syntax. -/

namespace Sys2Proof.Laws.WordLayout

/-- The word of a command is {op, data} as a number, op × 0x10000 + data (R45, R54), with the ignored bits of its operand
0 (R49). -/
def Statement (i : Instr) : Prop :=
  (encode i).toNat = i.opcode.toNat * 0x10000 + i.operand.toNat ∧ i.operand &&& usedBits i.opcode = i.operand

theorem word_toNat (op : Opcode) (data : Operand) :
    (CmdWord.of op data).toNat = op.toNat * 0x10000 + data.toNat := by
  simp only [CmdWord.of, BitVec.toNat_append, Nat.shiftLeft_eq]
  rw [← Nat.shiftLeft_eq, ← Nat.shiftLeft_add_eq_or_of_lt data.isLt, Nat.shiftLeft_eq]

theorem byte_used (b : Byte) : b.setWidth 16 &&& (0x00FF : Operand) = b.setWidth 16 := by
  revert b; decide

theorem setType (t : Operand) : Statement (.setType t) := ⟨word_toNat _ _, BitVec.and_allOnes⟩
theorem setChannel (c : Byte) : Statement (.setChannel c) := ⟨word_toNat _ _, byte_used c⟩
theorem setId (i : Byte) : Statement (.setId i) := ⟨word_toNat _ _, byte_used i⟩
theorem setBattery (l : Byte) : Statement (.setBattery l) := ⟨word_toNat _ _, byte_used l⟩
theorem setTemp (x : Operand) : Statement (.setTemp x) := ⟨word_toNat _ _, BitVec.and_allOnes⟩
theorem setHumidity (h : Byte) : Statement (.setHumidity h) := ⟨word_toNat _ _, byte_used h⟩
theorem checksum : Statement .checksum := ⟨word_toNat _ _, rfl⟩
theorem send : Statement .send := ⟨word_toNat _ _, rfl⟩

end Sys2Proof.Laws.WordLayout
end

