-- ==== Sys2Proof/Laws/Waveform.lean ====
section
/-! SUPPORT. The level of a waveform in time: of joined waveforms, of a symbol, of a frame, of a SEND. -/

namespace Sys2Proof.Machine

@[simp] theorem waveUnits_nil : waveUnits [] = 0 := rfl

@[simp] theorem waveUnits_cons (g : Segment) (w : Wave) : waveUnits (g :: w) = g.units + waveUnits w := by
  simp [waveUnits]

@[simp] theorem waveUnits_append (v w : Wave) : waveUnits (v ++ w) = waveUnits v + waveUnits w := by
  simp [waveUnits]

/-- Within the first waveform its own level, after it the second's. -/
theorem levelAt_append (v w : Wave) (u : Nat) :
    levelAt (v ++ w) u = if u < waveUnits v then levelAt v u else levelAt w (u - waveUnits v) := by
  induction v generalizing u with
  | nil => simp
  | cons g v ih =>
    simp only [List.cons_append, levelAt, waveUnits_cons, ih]
    by_cases hu : u < g.units
    · simp [hu, Nat.lt_add_right _ hu]
    · have h : (u - g.units < waveUnits v) = (u < g.units + waveUnits v) := by simp only [eq_iff_iff]; omega
      simp [hu, h, Nat.sub_add_eq]

/-- A waveform is LOW once it has ended. -/
theorem levelAt_of_ended (w : Wave) (u : Nat) (h : waveUnits w ≤ u) : levelAt w u = false := by
  induction w generalizing u with
  | nil => rfl
  | cons g w ih =>
    rw [waveUnits_cons] at h
    simp [levelAt, show ¬u < g.units by omega, ih _ (show waveUnits w ≤ u - g.units by omega)]

@[simp] theorem waveUnits_symWave (b : Bool) : waveUnits (symWave b) = 4 := rfl

/-- A symbol has its bit's level in units 1 and 2, the inverse in units 0 and 3 (R85). -/
theorem levelAt_symWave (b : Bool) (j : Nat) (h : j < 4) :
    levelAt (symWave b) j = if j = 1 ∨ j = 2 then b else !b := by
  have : j = 0 ∨ j = 1 ∨ j = 2 ∨ j = 3 := by omega
  rcases this with rfl | rfl | rfl | rfl <;> cases b <;> rfl

theorem waveUnits_symbols (f : Nat → Bool) (ks : List Nat) :
    waveUnits (ks.flatMap (fun k => symWave (f k))) = 4 * ks.length := by
  induction ks with
  | nil => rfl
  | cons k ks ih => simp [ih]; omega

/-- The level in the n-th of a sequence of symbols. -/
theorem levelAt_symbols (f : Nat → Bool) (ks : List Nat) (n j : Nat) (hj : j < 4) (hn : n < ks.length) :
    levelAt (ks.flatMap (fun k => symWave (f k))) (4 * n + j) = levelAt (symWave (f ks[n])) j := by
  induction ks generalizing n with
  | nil => simp at hn
  | cons k ks ih =>
    rw [List.flatMap_cons, levelAt_append, waveUnits_symWave]
    cases n with
    | zero => simp [hj]
    | succ n =>
      have h : 4 * (n + 1) + j - 4 = 4 * n + j := by omega
      rw [if_neg (by omega), h, ih n (by simpa using hn)]
      simp

@[simp] theorem waveUnits_frameWave (m : Memory) : waveUnits (frameWave m) = 384 := by
  rw [frameWave, waveUnits_symbols]; rfl

/-- The level of a frame, by symbol and unit (R85, R86). -/
theorem levelAt_frameWave (m : Memory) (k j : Nat) (hk : k < Config.frameSymbols) (hj : j < 4) :
    levelAt (frameWave m) (4 * k + j) = levelAt (symWave (frameBit m k)) j := by
  rw [frameWave, levelAt_symbols _ _ _ _ hj (by simpa using hk)]
  simp

theorem sendWave_eq (m : Memory) : sendWave m = frameWave m ++ (gapWave ++ frameWave m) := by
  simp [sendWave, Config.frameRepeat, List.intercalate, List.intersperse]

/-- The level of a SEND: a frame, the gap, the same frame (R92). -/
theorem levelAt_sendWave (m : Memory) (u : Nat) :
    levelAt (sendWave m) u =
      if u < 384 then levelAt (frameWave m) u
      else if u < 400 then false
      else levelAt (frameWave m) (u - 400) := by
  have hg : waveUnits gapWave = 16 := rfl
  rw [sendWave_eq, levelAt_append, levelAt_append, waveUnits_frameWave, hg]
  split
  · rfl
  · split
    · next h1 h2 =>
      have : u - 384 < 16 := h2
      simp [gapWave, levelAt, Config.gapUnits, this, show u < 400 by omega]
    · next h1 h2 => rw [if_neg (by omega), Nat.sub_sub]

end Sys2Proof.Machine
end

