-- ==== Sys2Proof/Laws/Sequencer.lean ====
section
/-! SUPPORT. How far a SEND is, in cycles: every edge of a running SEND is one cycle on, and the line has the waveform's
level at that cycle. -/

namespace Sys2Proof.Machine

/-- TIME units of a symbol before a segment of it (R84). -/
def segStart (g : Seg) : Nat :=
  match g with
  | 0 => 0
  | 1 => 1
  | 2 => 3

/-- TIME units of a frame before its position. -/
def posUnits (k : Sym) (g : Seg) : Nat := 4 * k.val + segStart g

/-- Cycles since the SEND's accepting edge, for a state in IDLE the whole length (R110). -/
def elapsed (P : Config.Params) (s : State) : Nat :=
  match s.phase with
  | .frame1 => posUnits s.sym s.seg * P.timeCycles + s.tick
  | .gap => 384 * P.timeCycles + s.tick
  | .frame2 => (400 + posUnits s.sym s.seg) * P.timeCycles + s.tick
  | .idle => 784 * P.timeCycles

theorem posUnits_endFrame : posUnits lastSym lastSeg + dur lastSeg = 384 := rfl

theorem posUnits_next (k : Sym) (g : Seg) (h : ¬(k = lastSym ∧ g = lastSeg)) :
    posUnits (if g = lastSeg then k + 1 else k) (if g = lastSeg then 0 else g + 1) = posUnits k g + dur g := by
  revert k g
  decide

/-- The position of a segment, its length included, is within the frame. -/
theorem posUnits_le (k : Sym) (g : Seg) : posUnits k g + dur g ≤ 384 := by
  revert k g
  decide

/-- An edge in a frame keeps R29's invariants. -/
theorem frameEdge_onSchedule (P : Config.Params) (s : State) (hi : s.OnSchedule P) (hp : s.phase = .frame1 ∨ s.phase = .frame2) :
    (s.frameEdge P).OnSchedule P := by
  have hf := hi.frame hp
  have hne : s.phase ≠ .idle ∧ s.phase ≠ .gap := by rcases hp with hp | hp <;> simp [hp]
  rcases frameEdge_cases P s with ⟨ht, h⟩ | ⟨-, -, -, h⟩ | ⟨-, -, h⟩ <;> rw [h]
  · exact ⟨fun h0 => absurd h0 hne.1, fun _ => ⟨ht, hf.2⟩, fun h0 => absurd h0 hne.2⟩
  · refine ⟨fun _ => ⟨rfl, rfl, rfl, rfl⟩, fun h0 => ?_, fun _ => ⟨rfl, rfl, rfl, gapCycles_pos P⟩⟩
    rcases hp with hp | hp <;> simp [hp] at h0
  · exact ⟨fun h0 => absurd h0 hne.1, fun _ => ⟨segCycles_pos P _, rfl⟩, fun h0 => absurd h0 hne.2⟩

/-- An edge in the gap keeps R29's invariants. -/
theorem gapEdge_onSchedule (P : Config.Params) (s : State) (hi : s.OnSchedule P) (hp : s.phase = .gap) : (s.gapEdge P).OnSchedule P := by
  have hg := hi.gap hp
  rcases gapEdge_cases P s with ⟨ht, h⟩ | ⟨-, h⟩ <;> rw [h]
  · exact ⟨by simp [hp], by simp [hp], fun _ => ⟨hg.1, hg.2.1, hg.2.2.1, ht⟩⟩
  · exact ⟨by simp, by simp [segCycles_pos], by simp⟩

/-- An edge in a frame is one cycle on. -/
theorem frameEdge_elapsed (P : Config.Params) (s : State) (hi : s.OnSchedule P)
    (hp : s.phase = .frame1 ∨ s.phase = .frame2) : elapsed P (s.frameEdge P) = elapsed P s + 1 := by
  have hf := (hi.frame hp).1
  rcases frameEdge_cases P s with ⟨ht, h⟩ | ⟨ht, hk, hg, h⟩ | ⟨ht, hn, h⟩ <;> rw [h]
  · rcases hp with hp | hp <;> simp [elapsed, hp] <;> omega
  · have hlen : segCycles P lastSeg = 1 * P.timeCycles := rfl
    have h1 : s.tick + 1 = 1 * P.timeCycles := by rw [hg] at hf ht; omega
    have h2 : posUnits s.sym s.seg = 383 := by rw [hk, hg]; rfl
    rcases hp with hp | hp <;> simp [elapsed, hp, h2] <;> omega
  · have hlen : segCycles P s.seg = dur s.seg * P.timeCycles := rfl
    have h1 : s.tick + 1 = dur s.seg * P.timeCycles := by omega
    have h2 := posUnits_next s.sym s.seg hn
    rcases hp with hp | hp <;> simp [elapsed, hp, h2, Nat.add_mul] <;> omega

/-- An edge in the gap is one cycle on. -/
theorem gapEdge_elapsed (P : Config.Params) (s : State) (hi : s.OnSchedule P) (hp : s.phase = .gap) :
    elapsed P (s.gapEdge P) = elapsed P s + 1 := by
  have hg := (hi.gap hp).2.2.2
  have hc : gapCycles P = 16 * P.timeCycles := rfl
  rcases gapEdge_cases P s with ⟨ht, h⟩ | ⟨ht, h⟩ <;> rw [h]
  · simp [elapsed, hp]; omega
  · simp [elapsed, hp, posUnits, segStart]; omega

/-- Without reset, an edge outside IDLE is one cycle on whatever the host presents, and keeps the buffer, the inputs and
the invariants. -/
theorem edge_of_busy (P : Config.Params) (p : Pins) (s : State) (hi : s.OnSchedule P) (hr : p.rst = false)
    (hb : s.phase ≠ .idle) :
    ∃ t, edge P p s = .next t ∧ t.OnSchedule P ∧ t.buf = s.buf ∧ t.pins = s.pins ∧ elapsed P t = elapsed P s + 1 := by
  cases hp : s.phase with
  | idle => exact absurd hp hb
  | frame1 =>
    exact ⟨_, edge_of_frame P p s hr (.inl hp), frameEdge_onSchedule P s hi (.inl hp), s.frameEdge_buf P, s.frameEdge_pins P,
      frameEdge_elapsed P s hi (.inl hp)⟩
  | frame2 =>
    exact ⟨_, edge_of_frame P p s hr (.inr hp), frameEdge_onSchedule P s hi (.inr hp), s.frameEdge_buf P, s.frameEdge_pins P,
      frameEdge_elapsed P s hi (.inr hp)⟩
  | gap =>
    exact ⟨_, edge_of_gap P p s hr hp, gapEdge_onSchedule P s hi hp, s.gapEdge_buf P, s.gapEdge_pins P,
      gapEdge_elapsed P s hi hp⟩

/-- The level at a position of a frame is the frame's waveform at the unit the position is in. -/
theorem levelAt_position (m : Memory) (TC tick : Nat) (k : Sym) (g : Seg) (ht : tick < dur g * TC) :
    levelAt (frameWave m) ((posUnits k g * TC + tick) / TC) = drivenLevel m k g := by
  have hTC : 0 < TC := by
    rcases Nat.eq_zero_or_pos TC with h | h
    · simp [h] at ht
    · exact h
  have hd : tick / TC < dur g := Nat.div_lt_of_lt_mul (by rwa [Nat.mul_comm] at ht)
  have hg : segStart g + dur g ≤ 4 := by clear hd ht; revert g; decide
  have hu : tick / TC + posUnits k g = 4 * k.val + (segStart g + tick / TC) := by unfold posUnits; omega
  rw [Nat.add_comm, Nat.add_mul_div_right _ _ hTC, hu, levelAt_frameWave _ _ _ k.isLt (by omega),
    levelAt_symWave _ _ (by omega)]
  generalize tick / TC = d at hd
  have hc : g = 0 ∨ g = 1 ∨ g = 2 := by clear * -; revert g; decide
  unfold drivenLevel lvl
  rcases hc with rfl | rfl | rfl <;> simp [segStart, dur] at hd ⊢
  · simp [hd]
  · intro _; omega
  · simp [hd]

/-- In every state of R29 the line has the level of the SEND's waveform at the cycle the SEND is in. -/
theorem line_eq_levelAt (P : Config.Params) (s : State) (hi : s.OnSchedule P) :
    s.line = levelAt (sendWave s.buf) (elapsed P s / P.timeCycles) := by
  have hTC := timeCycles_pos P
  rw [levelAt_sendWave]
  cases hp : s.phase with
  | idle =>
    have h : elapsed P s / P.timeCycles = 784 := by simp [elapsed, hp, hTC]
    simp [h, (hi.idle hp).1, levelAt_of_ended]
  | gap =>
    obtain ⟨h1, -, -, h2⟩ := hi.gap hp
    have hc : gapCycles P = 16 * P.timeCycles := rfl
    have h3 : s.tick / P.timeCycles < 16 := Nat.div_lt_of_lt_mul (by rw [Nat.mul_comm]; omega)
    have h4 : elapsed P s / P.timeCycles = 384 + s.tick / P.timeCycles := by
      simp only [elapsed, hp]
      rw [Nat.add_comm, Nat.add_mul_div_right _ _ hTC, Nat.add_comm]
    rw [h4, h1]
    generalize s.tick / P.timeCycles = d at h3
    rw [if_neg (by omega), if_pos (by omega)]
  | frame1 =>
    have hf := hi.frame (.inl hp)
    have hle := posUnits_le s.sym s.seg
    have hd : s.tick / P.timeCycles < dur s.seg := Nat.div_lt_of_lt_mul (by rw [Nat.mul_comm]; exact hf.1)
    have he : elapsed P s = posUnits s.sym s.seg * P.timeCycles + s.tick := by simp [elapsed, hp]
    have h4 : elapsed P s / P.timeCycles < 384 := by
      rw [he, Nat.add_comm, Nat.add_mul_div_right _ _ hTC]
      omega
    rw [if_pos h4, he, levelAt_position _ _ _ _ _ hf.1, hf.2]
  | frame2 =>
    have hf := hi.frame (.inr hp)
    have he : elapsed P s / P.timeCycles = 400 + (posUnits s.sym s.seg * P.timeCycles + s.tick) / P.timeCycles := by
      simp only [elapsed, hp, Nat.add_mul]
      rw [Nat.add_assoc, Nat.add_comm (400 * _), Nat.add_mul_div_right _ _ hTC, Nat.add_comm]
    rw [he, hf.2, ← levelAt_position s.buf P.timeCycles s.tick s.sym s.seg hf.1]
    generalize (posUnits s.sym s.seg * P.timeCycles + s.tick) / P.timeCycles = d
    rw [if_neg (by omega), if_neg (by omega), Nat.add_sub_cancel_left]

/-- The phase, by how far the SEND is (R110). -/
theorem phase_of_elapsed (P : Config.Params) (s : State) (hi : s.OnSchedule P) :
    (s.phase = .frame1 ↔ elapsed P s < 384 * P.timeCycles) ∧
    (s.phase = .gap ↔ 384 * P.timeCycles ≤ elapsed P s ∧ elapsed P s < 400 * P.timeCycles) ∧
    (s.phase = .frame2 ↔ 400 * P.timeCycles ≤ elapsed P s ∧ elapsed P s < 784 * P.timeCycles) ∧
    (s.phase = .idle ↔ elapsed P s = 784 * P.timeCycles) := by
  have hTC := timeCycles_pos P
  have hpos : s.phase = .frame1 ∨ s.phase = .frame2 →
      posUnits s.sym s.seg * P.timeCycles + s.tick < 384 * P.timeCycles := by
    intro h
    have ht : s.tick < dur s.seg * P.timeCycles := (hi.frame h).1
    have hle := Nat.mul_le_mul_right P.timeCycles (posUnits_le s.sym s.seg)
    rw [Nat.add_mul] at hle
    omega
  have hgap : s.phase = .gap → s.tick < 16 * P.timeCycles := fun h => (hi.gap h).2.2.2
  cases hp : s.phase <;> simp [elapsed, hp, Nat.add_mul] at hpos hgap ⊢ <;> omega

end Sys2Proof.Machine
end

