-- ==== Sys2Proof/Laws/Run.lean ====
section
/-! SUPPORT. Runs of many edges, one edge at a time and in two parts, for the host's run and for the driver's. -/

namespace Sys2Proof.Machine

theorem coreRun_succ (M : Host.Core) (s t : M.State) (n : Nat) (h : M.step s = .next t) :
    M.run (n + 1) s = M.run n t := by
  rw [Host.Core.run, h]

theorem coreRun_add (M : Host.Core) (s t : M.State) (n k : Nat) (h : M.run n s = .next t) :
    M.run (n + k) s = M.run k t := by
  induction n generalizing s with
  | zero => cases h; simp
  | succ n ih =>
    rw [Nat.add_right_comm]
    cases hs : M.step s with
    | next u =>
      rw [coreRun_succ _ _ _ _ hs] at h ⊢
      exact ih _ h
    | fault r => rw [Host.Core.run, hs] at h; cases h
    | refused r => rw [Host.Core.run, hs] at h; cases h

/-- One step, then the rest of the run. -/
theorem run_succ {s t : State} (n : Nat) (h : step s = .next t) :
    Host.Core.run Sys2Proof.core (n + 1) s = Host.Core.run Sys2Proof.core n t :=
  coreRun_succ Sys2Proof.core s t n h

/-- A run in two parts. -/
theorem run_add {s t : State} (n k : Nat) (h : Host.Core.run Sys2Proof.core n s = .next t) :
    Host.Core.run Sys2Proof.core (n + k) s = Host.Core.run Sys2Proof.core k t :=
  coreRun_add Sys2Proof.core s t n k h

theorem driverRun_succ {P : Config.Params} {d e : Driver} (n : Nat) (h : d.edge P = .next e) :
    Driver.run P (n + 1) d = Driver.run P n e := by
  rw [Driver.run, h]

theorem driverRun_add {P : Config.Params} {d e : Driver} (n k : Nat) (h : Driver.run P n d = .next e) :
    Driver.run P (n + k) d = Driver.run P k e := by
  induction n generalizing d with
  | zero => cases h; simp
  | succ n ih =>
    rw [Nat.add_right_comm]
    cases hs : d.edge P with
    | next u =>
      rw [driverRun_succ _ hs] at h ⊢
      exact ih h
    | fault r => rw [Driver.run, hs] at h; cases h
    | refused r => rw [Driver.run, hs] at h; cases h

end Sys2Proof.Machine
end

