-- ==== Sys2Proof/Tests/Slice0.lean ====
section
/-! SUPPORT. Tests against the spec's own vectors (95_test_vectors.md), the smoke test of WellFormed, and for each
statement with hypotheses a witness that meets them. -/

namespace Sys2Proof.Tests

open Sys2Proof.Machine

/-- Parameter set S of 95_test_vectors.md with TIME_CYCLES = 1. -/
def paramsS : Config.Params := ⟨0, 0x1A2D, 0x20, 0xBB⟩

/-- A block at rest whose buffer is the bytes given, from byte 0. -/
def blockOf (bytes : List Byte) : State :=
  { State.afterReset paramsS with
    buf := bytes.zipIdx.foldl (fun m p => Memory.write m (Fin.ofNat Config.msgLen p.2) p.1) [] }

/-- The bytes of W1. -/
def w1 : State := blockOf [0x1A, 0x2D, 0x20, 0xBB, 0x40, 0x23, 0x50, 0x04]

def byteAfter (o : Host.Outcome State Fault Refusal) (a : Addr) : Option Byte :=
  match o with
  | .next t => some (t.byte a)
  | .fault _ => none
  | .refused _ => none

def lineAfter (o : Host.Outcome State Fault Refusal) : Option (Phase × Bool) :=
  match o with
  | .next t => some (t.phase, t.line)
  | .fault _ => none
  | .refused _ => none

-- Decoding: each command's word written out from R45 and R48, {op, data}

theorem test_decode_setType : decode 0b000_0001101000101101 = .setType 0x1A2D := by decide
theorem test_decode_setChannel : decode 0b001_0000000000100000 = .setChannel 0x20 := by decide
theorem test_decode_setId : decode 0b010_0000000010111011 = .setId 0xBB := by decide
theorem test_decode_setBattery : decode 0b011_0000000000000001 = .setBattery 0x01 := by decide
theorem test_decode_setBattery_ignored : decode 0b011_1111111100000000 = .setBattery 0x00 := by decide
theorem test_decode_setTemp : decode 0b100_1111111111000111 = .setTemp (BitVec.ofInt 16 (-57)) := by decide
theorem test_decode_setHumidity : decode 0b101_0000000000101101 = .setHumidity 45 := by decide
theorem test_decode_checksum : decode 0b110_0000000000000000 = .checksum := by decide
theorem test_decode_send : decode 0b111_0000000000000000 = .send := by decide
theorem test_decode_wide_refused : decodeNat 0x80000 = .error .widerThanCommandWord := by decide
theorem test_decode_table_word : decodeTableWord 24 0x400EA = some (.setTemp 234) := by decide

-- WellFormed: an ill-formed source command for each check, refused (R54, R55)

theorem smoke_word_operand : (SourceCmd.setType 0x10000).wf = false := by decide
theorem smoke_byte_operand : (SourceCmd.setHumidity 256).problem = some .operandOutOfRange := by decide
theorem smoke_two_fraction_digits : (SourceCmd.setTemp ⟨false, 23, [4, 5]⟩).problem = some .tooManyFractionDigits := by
  decide
theorem smoke_fraction_digit : (SourceCmd.setTemp ⟨false, 23, [10]⟩).problem = some .malformedOperand := by decide
theorem smoke_temperature_range : (SourceCmd.setTemp ⟨false, 3276, [8]⟩).problem = some .operandOutOfRange := by decide
theorem smoke_pseudo_operand : (SourceCmd.reading 1 ⟨false, 23, [4]⟩ 256).wf = false := by decide

-- The commands (sections 2.2 to 2.6 and P1 to P4 of 95_test_vectors.md)

theorem test_setType : [0, 1].map (byteAfter (exec (.setType 0x1234) w1)) = [some 0x12, some 0x34] := by decide
theorem test_setChannel : [2, 3].map (byteAfter (exec (.setChannel 0x25) w1)) = [some 0x25, some 0xBB] := by decide
theorem test_setId : [3, 2].map (byteAfter (exec (.setId 0x00) w1)) = [some 0x00, some 0x20] := by decide
theorem test_setBattery_low : byteAfter (exec (.setBattery 0) w1) 4 = some 0x0C := by decide
theorem test_setBattery_ok : byteAfter (exec (.setBattery 0x80) w1) 4 = some 0x00 := by decide
theorem test_setTemp_negative :
    [4, 5, 6].map (byteAfter (exec (.setTemp (BitVec.ofInt 16 (-57))) (blockOf [0, 0, 0, 0, 0x0C, 0, 0x98]))) =
      [some 0x7C, some 0x05, some 0x08] := by decide
theorem test_setTemp_least :
    [4, 5, 6].map (byteAfter (exec (.setTemp 0x8000) (blockOf []))) = [some 0x80, some 0x76, some 0x08] := by decide
theorem test_setHumidity_ors : [6, 7].map (byteAfter (exec (.setHumidity 42) w1)) = [some 0x70, some 0x04] := by decide
theorem test_setHumidity_large : [6, 7].map (byteAfter (exec (.setHumidity 199) (blockOf []))) = [some 0x90, some 0x13] := by
  decide
theorem test_checksum_w1 : byteAfter (exec .checksum w1) 8 = some 0x3A := by decide
theorem test_checksum_wraps : byteAfter (exec .checksum (blockOf [0x09])) 8 = some 0xFF := by decide
theorem test_send : byteAfter (exec .send w1) 8 = some 0x3A ∧ lineAfter (exec .send w1) = some (.frame1, false) := by
  decide

-- One edge of the sequencer at TIME_CYCLES = 1 (section 2.8): cycles 0, 63, 383, 399 and 783 each go on to the next

theorem test_cycle_0 : lineAfter (edge paramsS .quiet { w1 with phase := .frame1 }) = some (.frame1, true) := by decide
theorem test_cycle_63 : lineAfter (edge paramsS .quiet { w1 with phase := .frame1, sym := 15, seg := 2 }) =
    some (.frame1, true) := by decide
theorem test_cycle_383 : lineAfter (edge paramsS .quiet { w1 with phase := .frame1, sym := 95, seg := 2, line := true }) =
    some (.gap, false) := by decide
theorem test_cycle_399 : lineAfter (edge paramsS .quiet { w1 with phase := .gap, tick := 15 }) = some (.frame2, false) := by
  decide
theorem test_cycle_783 : lineAfter (edge paramsS .quiet { w1 with phase := .frame2, sym := 95, seg := 2, line := true }) =
    some (.idle, false) := by decide

/-- The bits of 0x1A, symbols 16 to 23 (section 2.7). -/
theorem test_frame_bits : (List.range 8).map (fun k => frameBit w1.buf (16 + k)) =
    [false, true, false, true, true, false, false, false] := by decide

/-- Section 2.9: reset wins over a command presented with it. -/
theorem test_reset_wins : lineAfter (edge paramsS ⟨true, true, 0b111, 0, 0⟩ w1) = some (.idle, false) ∧
    byteAfter (edge paramsS ⟨true, true, 0b111, 0, 0⟩ w1) 4 = some 0x00 := by decide

/-- Read-back at 8 and at 9 (R34). -/
theorem test_read_back : (w1.rdData 7, w1.rdData 9) = (0x04, 0x00) := by decide

-- The assembler (section 2.1)

/-- "SETTEMP -5.7", then a comment. -/
theorem test_assemble_temp : assemble ['S', 'E', 'T', 'T', 'E', 'M', 'P', ' ', '-', '5', '.', '7', ' ', ';', 'x', '\n',
    'S', 'E', 'N', 'D'] = .ok [0x4FFC7, 0x70000] := by decide

/-- "SEND", then "SETTEMP 23.45": refused at line 2. -/
theorem test_assemble_refuses_by_line : assemble ['S', 'E', 'N', 'D', '\n', 'S', 'E', 'T', 'T', 'E', 'M', 'P', ' ', '2',
    '3', '.', '4', '5'] = .error ⟨2, .tooManyFractionDigits⟩ := by decide

/-- "REPORT 1, 0xA, 45" has no temperature literal; "SETID" has no operand. -/
theorem test_assemble_refuses_operands : assemble ['R', 'E', 'P', 'O', 'R', 'T', ' ', '1', ',', ' ', '0', 'x', 'A', ',',
    ' ', '4', '5'] = .error ⟨1, .malformedOperand⟩ ∧
    assemble ['S', 'E', 'T', 'I', 'D'] = .error ⟨1, .missingOperand⟩ := by decide

/-- A word placed for the host runs at the first step after reset. -/
theorem test_fetch_after_reset : lineAfter (step (State.reset.withFetchWord 24 0x70000)) = some (.frame1, false) := by
  decide

-- Witnesses: a state and operands that meet a statement's hypotheses, clause by clause

/-- `w1` with the host driving `p` next. -/
def driven (p : Pins) : State := { w1 with pins := [p] }

/-- A block in a frame or the gap, at a position, with the host driving nothing. -/
def busyAt (ph : Phase) (sym : Sym) (seg : Seg) (tick : Nat) : State :=
  { w1 with phase := ph, sym := sym, seg := seg, tick := tick }

theorem witness_DecodeOfEncodeIsTheCommand : (Instr.setTemp 0x8000).wf = true := rfl

theorem witness_IgnoredBitsHaveNoEffect : CmdWord.op 0x3FF00 = CmdWord.op 0x30000 ∧
    CmdWord.data 0x3FF00 &&& usedBits (CmdWord.op 0x3FF00) = CmdWord.data 0x30000 &&& usedBits (CmdWord.op 0x30000) := by
  decide

theorem witness_SetIdAloneChangesTheIdByte :
    ∃ t, step (driven (Pins.present 0x20001)) = .next t ∧ t.byte 3 ≠ (driven (Pins.present 0x20001)).byte 3 :=
  ⟨_, rfl, by decide⟩

theorem witness_SetBatteryReplacesByteFour : (0x0100 : Operand).toNat % 256 = 0 ∧ (0x0001 : Operand).toNat % 256 ≠ 0 := by
  decide

theorem witness_SetTempWritesSignAndDigits : ∃ (d : Operand) (T : Int) (M I tt td tf : Nat), T = d.toInt ∧
    (M : Int) = (if T < 0 then 0 - T else T) ∧ I = M / 10 ∧ tt = M % 10 ∧ td = I / 10 ∧ tf = I % 10 :=
  ⟨0x8000, -32768, 32768, 3276, 8, 327, 6, by decide, by decide, by decide, by decide, by decide, by decide⟩

theorem witness_LargeTemperaturesCutTheTensNibble :
    1000 ≤ (BitVec.ofInt 16 1000).toInt.natAbs ∧ 1000 ≤ (BitVec.ofInt 16 (-1000)).toInt.natAbs := by decide

theorem witness_SetTempAgreesWithTheSourceFormulas : ∃ (d : Operand) (temp : ℚ) (intPart td tf tempFloat : Int),
    d.toInt.natAbs ≤ 999 ∧ temp = (d.toInt.natAbs : ℚ) / 10 ∧ intPart = ⌊temp⌋ ∧ td = ⌊(intPart : ℚ) / 10⌋ ∧
    tf = round (((intPart : ℚ) / 10 - td) * 10) ∧ tempFloat = round ((temp - intPart) * 10) :=
  ⟨BitVec.ofInt 16 (-999), _, _, _, _, _, by decide, rfl, rfl, rfl, rfl, rfl⟩

theorem witness_SetHumidityWritesTensAndOrsUnits : ∃ (d : Operand) (H ht hu : Nat),
    H = d.toNat % 256 ∧ ht = H / 10 ∧ hu = H % 10 :=
  ⟨0x01FF, 255, 25, 5, by decide, by decide, by decide⟩

/-- Both sides of the wrap: nibble sums 9 and 10. -/
theorem witness_ChecksumStoresNibbleSumMinusTen :
    9 = ((([0, 1, 2, 3, 4, 5, 6, 7] : List Addr).map
      (fun a => ((blockOf [0x09]).byte a).toNat / 16 + ((blockOf [0x09]).byte a).toNat % 16)).sum) ∧
    10 = ((([0, 1, 2, 3, 4, 5, 6, 7] : List Addr).map
      (fun a => ((blockOf [0x91]).byte a).toNat / 16 + ((blockOf [0x91]).byte a).toNat % 16)).sum) := by decide

theorem witness_SendStoresChecksumAndStartsFirstFrame : (Pins.present 0x70000).rst = false ∧ w1.phase = .idle ∧
    (Pins.present 0x70000).cmdValid = true ∧ (Pins.present 0x70000).cmdOp = 0b111 := by decide

theorem witness_CommandsWriteOnlyTheirOwnBytes : Instr.checksum ≠ .send ∧ (0 : Addr) ∉ Instr.writes .checksum := by decide

theorem witness_BytesChangeOnlyByResetOrTheirCommand :
    (∃ t, step (driven (Pins.present 0x60000)) = .next t ∧ t.byte 8 ≠ (driven (Pins.present 0x60000)).byte 8) ∧
    ∃ t, step (driven ⟨true, false, 0, 0, 0⟩) = .next t ∧ t.byte 4 ≠ (driven ⟨true, false, 0, 0, 0⟩).byte 4 := by
  refine ⟨⟨_, rfl, by decide⟩, _, rfl, ?_⟩
  have h : ((driven ⟨true, false, 0, 0, 0⟩).resetEdge Config.params).byte 4 = 0x00 := by
    simp [State.byte, Memory.afterReset_read]
  exact fun h' => absurd (h.symm.trans h') (by decide)

theorem witness_RepeatedCommandsLeaveTheSameState : w1.buf.wf = true ∧ Instr.setTemp 234 ≠ .send ∧
    (∀ h, Instr.setTemp 234 ≠ .setHumidity h) ∧ ∃ t, exec (.setTemp 234) w1 = .next t :=
  ⟨by decide, by decide, fun _ => by simp, _, rfl⟩

theorem witness_ReadingDecodesToItsOperands : (-999 ≤ (BitVec.ofInt 16 (-999)).toInt ∧ (BitVec.ofInt 16 (-999)).toInt ≤ 999) ∧
    (-999 ≤ (BitVec.ofInt 16 999).toInt ∧ (BitVec.ofInt 16 999).toInt ≤ 999) ∧ (99 : Byte).toNat ≤ 99 := by decide

theorem witness_ChecksumSeesEverySingleBitChange : (0 : Addr) ≠ 8 ∧ (7 : Addr) ≠ 8 ∧ 7 < 8 := by decide

theorem witness_SerializerRanges : 7 < 8 ∧ 15 < 16 ∧ (88 ≤ 88 ∧ 88 < 96) ∧ (88 ≤ 95 ∧ 95 < 96) ∧ 3 < 4 := by decide

theorem witness_SendIsTwoFramesAndAGap : (383 < 384) ∧ (384 ≤ 384 ∧ 384 < 400) ∧ (384 ≤ 400 ∧ 400 < 401) ∧
    (400 ≤ 400 ∧ 783 < 784) ∧ 784 ≤ 784 ∧ w1.Inv Config.params ∧ w1.phase = .idle :=
  ⟨by decide, by decide, by decide, by decide, by decide,
    ⟨by decide, fun _ => ⟨rfl, rfl, rfl, rfl⟩, by decide, by decide⟩, rfl⟩

theorem witness_JoiningEqualNeighboursKeepsTheLevel :
    (mergeRuns [⟨true, 1⟩, ⟨true, 2⟩, ⟨false, 1⟩])[0]? = some ⟨true, 3⟩ ∧
    (mergeRuns [⟨true, 1⟩, ⟨true, 2⟩, ⟨false, 1⟩])[0 + 1]? = some ⟨false, 1⟩ := by decide

theorem witness_ResetStateValues : 4 ≤ (4 : Addr).val ∧ 4 ≤ (8 : Addr).val := by decide

theorem witness_ResetEdgeRestoresEveryElement : (driven ⟨true, true, 0b111, 0, 0⟩).nextPins.rst = true := rfl

theorem witness_IdleWithoutCommandKeepsTheState :
    w1.nextPins.rst = false ∧ w1.phase = .idle ∧ w1.nextPins.cmdValid = false := by decide

theorem witness_StepRunsTheAcceptedCommand :
    (driven (Pins.present 0x400EA)).phase = .idle ∧ (driven (Pins.present 0x400EA)).nextPins.rst = false ∧
    (driven (Pins.present 0x400EA)).nextPins.cmdValid = true ∧ decodeTableWord 24 0x400EA = some (.setTemp 234) := by decide

/-- The long segment lasts at least two cycles. -/
theorem witness_InsideASegmentOnlyTickMoves : (busyAt .frame1 0 1 0).nextPins.rst = false ∧
    (busyAt .frame1 0 1 0).tick + 1 < segCycles Config.params (busyAt .frame1 0 1 0).seg := by
  refine ⟨rfl, ?_⟩
  have h := timeCycles_pos Config.params
  show 0 + 1 < 2 * Config.params.timeCycles
  omega

/-- The last cycle of a segment, for any position. -/
theorem lastCycle (ph : Phase) (k : Sym) (g : Seg) :
    (busyAt ph k g (segCycles Config.params g - 1)).tick + 1 = segCycles Config.params g :=
  Nat.sub_add_cancel (segCycles_pos _ _)

/-- A block in the last cycle of a SEND, its line at the last segment's level. -/
def sendEnd : State := { busyAt .frame2 95 2 (segCycles Config.params 2 - 1) with line := true }

theorem witness_EndOfSegmentMovesOn :
    (busyAt .frame2 94 2 (segCycles Config.params 2 - 1)).nextPins.rst = false ∧
    ¬((94 : Sym).val = 95 ∧ (2 : Seg).val = 2) ∧ ¬((95 : Sym).val = 95 ∧ (1 : Seg).val = 2) ∧
    (busyAt .frame2 94 2 (segCycles Config.params 2 - 1)).tick + 1 = segCycles Config.params 2 ∧
    (busyAt .frame1 95 1 (segCycles Config.params 1 - 1)).tick + 1 = segCycles Config.params 1 :=
  ⟨rfl, by decide, by decide, lastCycle _ _ _, lastCycle _ _ _⟩

theorem witness_EndOfFrameGoesLow :
    (busyAt .frame1 95 2 (segCycles Config.params 2 - 1)).tick + 1 = segCycles Config.params 2 ∧
    (busyAt .frame2 95 2 (segCycles Config.params 2 - 1)).tick + 1 = segCycles Config.params 2 ∧
    (95 : Sym).val = 95 ∧ (2 : Seg).val = 2 ∧ (busyAt .frame2 95 2 0).nextPins.rst = false :=
  ⟨lastCycle _ _ _, lastCycle _ _ _, rfl, rfl, rfl⟩

theorem witness_GapThenSecondFrame :
    (busyAt .gap 0 0 0).nextPins.rst = false ∧ (busyAt .gap 0 0 0).phase = .gap ∧
    (busyAt .gap 0 0 0).tick + 1 < gapCycles Config.params ∧
    (busyAt .gap 0 0 (gapCycles Config.params - 1)).tick + 1 = gapCycles Config.params := by
  refine ⟨rfl, rfl, ?_, Nat.sub_add_cancel (gapCycles_pos _)⟩
  have h := timeCycles_pos Config.params
  show 0 + 1 < 16 * Config.params.timeCycles
  omega

theorem witness_CommandsHaveNoEffectWhileBusy :
    (busyAt .gap 0 0 0).cmdReady = false ∧ (Pins.present 0x50032).rst = false := by decide

theorem witness_BufferIsStableWhileBusy :
    (busyAt .frame1 0 0 0).phase ≠ .idle ∧ (busyAt .frame1 0 0 0).nextPins.rst = false := by decide

theorem witness_OnlyAnAcceptedSendLeavesIdle : (driven (Pins.present 0x70000)).phase = .idle ∧
    ∃ t, step (driven (Pins.present 0x70000)) = .next t ∧ t.phase ≠ .idle :=
  ⟨rfl, _, rfl, by decide⟩

/-- The last cycle of the second frame, in a state that meets the invariant. -/
theorem witness_OnlyResetEndsASendEarly :
    (busyAt .frame1 95 2 0).nextPins.rst = false ∧ (∃ t, step (busyAt .frame1 95 2 0) = .next t) ∧
    (∃ t, step (busyAt .gap 0 0 0) = .next t) ∧ ∃ t, step sendEnd = .next t ∧ t.phase = .idle ∧ sendEnd.Inv Config.params := by
  refine ⟨rfl, ⟨_, step_of_frame _ rfl (.inl rfl)⟩, ⟨_, step_of_gap _ rfl rfl⟩, _, step_of_frame _ rfl (.inr rfl), ?_, ?_⟩
  · have h := lastCycle .frame2 95 2
    simp only [State.frameEdge]
    rw [if_neg (by exact Nat.not_lt.mpr (Nat.le_of_eq h.symm)), if_pos ⟨rfl, rfl⟩]
    rfl
  · refine ⟨by decide, ⟨by simp [sendEnd, busyAt], fun _ => ⟨?_, by decide⟩, by simp [sendEnd, busyAt]⟩⟩
    exact Nat.sub_one_lt (Nat.ne_of_gt (segCycles_pos _ _))

/-- The invariant at rest and in a frame, with the step that follows. -/
theorem witness_EveryStepKeepsTheInvariant : (w1.Inv Config.params ∧ ∃ t, step w1 = .next t) ∧
    (busyAt .frame1 0 0 0).Inv Config.params ∧ ∃ t, step (busyAt .frame1 0 0 0) = .next t :=
  ⟨⟨⟨by decide, fun _ => ⟨rfl, rfl, rfl, rfl⟩, by decide, by decide⟩, _, rfl⟩,
    ⟨by decide, ⟨by decide, fun _ => ⟨segCycles_pos _ _, (drivenLevel_start _).symm⟩, by decide⟩⟩,
    _, step_of_frame _ rfl (.inl rfl)⟩

theorem witness_ReadBackShowsTheBuffer : (8 : RdAddr).toNat = (8 : Addr).val ∧ 8 < (9 : RdAddr).toNat := by decide

/-- For both statements about a whole SEND. -/
theorem witness_CyclesRefineTheSendWaveform : (driven (Pins.present 0x70000)).phase = .idle ∧
    (driven (Pins.present 0x70000)).pins = [Pins.present 0x70000] ∧ (Pins.present 0x70000).rst = false ∧
    (Pins.present 0x70000).cmdValid = true ∧ (Pins.present 0x70000).command = .send ∧
    ∀ q ∈ ([] : List Pins), q.rst = false := by
  refine ⟨rfl, rfl, rfl, rfl, by decide, by simp⟩

theorem witness_PresentedCommandsComposeInOrder : w1.Inv paramsS ∧ w1.phase = .idle :=
  ⟨⟨by decide, fun _ => ⟨rfl, rfl, rfl, rfl⟩, by decide, by decide⟩, rfl⟩

theorem witness_AssemblerKeepsToTheOperandRanges : 0xFFFF ≤ 0xFFFF ∧ 0xFF ≤ 0xFF ∧ 0xFFFF < 0x10000 ∧ 0xFF < 0x100 ∧
    ([8] : List Nat).length ≤ 1 ∧ ([8] : List Nat).headD 0 ≤ 9 ∧ -((3276 * 10 + 8 : Nat) : Int) = -32768 ∧
    (32767 : Int) < ((3276 * 10 + 8 : Nat) : Int) := by decide

theorem witness_TemperatureLiteralsAreTenths : ([8] : List Nat).length ≤ 1 ∧ ([8] : List Nat).headD 0 ≤ 9 ∧
    (-32768 : Int) = (if true then -((3276 * 10 + ([8] : List Nat).headD 0 : Nat) : Int) else 0) ∧
    (32767 : Int) < ((3276 * 10 + ([8] : List Nat).headD 0 : Nat) : Int) ∧ 2 ≤ ([4, 5] : List Nat).length := by decide

theorem witness_PseudoCommandsExpandInOrder :
    0x1A2D ≤ 0xFFFF ∧ 0x20 ≤ 0xFF ∧ 0xBB ≤ 0xFF ∧ (TempLit.mk false 23 [4]).problem = none := by decide

end Sys2Proof.Tests
end

section
/-! PROOF. The machine right after reset (R30): its buffer byte by byte, its position and its outputs. -/

namespace Sys2Proof.Machine

@[simp] theorem State.afterReset_buf (P : Config.Params) : (State.afterReset P).buf = Memory.afterReset P := rfl
@[simp] theorem State.afterReset_line (P : Config.Params) : (State.afterReset P).line = false := rfl
@[simp] theorem State.afterReset_phase (P : Config.Params) : (State.afterReset P).phase = .idle := rfl
@[simp] theorem State.afterReset_sym (P : Config.Params) : (State.afterReset P).sym = 0 := rfl
@[simp] theorem State.afterReset_seg (P : Config.Params) : (State.afterReset P).seg = 0 := rfl
@[simp] theorem State.afterReset_tick (P : Config.Params) : (State.afterReset P).tick = 0 := rfl

@[simp] theorem State.outputs_lineOut (s : State) (p : Pins) : (s.outputs p).lineOut = s.line := rfl

/-- R21: a block in IDLE is ready for a command. -/
theorem State.cmdReady_of_idle {s : State} (h : s.phase = .idle) : s.cmdReady = true := decide_eq_true h

/-- R21: a block in IDLE is not busy. -/
theorem State.busy_of_idle {s : State} (h : s.phase = .idle) : s.busy = false := decide_eq_false (not_not_intro h)

/-- Bytes 4 to 8 are clear after reset, whatever the parameters (R30). -/
theorem Memory.afterReset_read_of_four_le (P : Config.Params) {a : Addr} (h : 4 ≤ a.val) :
    (Memory.afterReset P).read a = 0x00 := by
  have hne : ∀ b : Addr, b.val < 4 → a ≠ b := fun b hb hab => by
    subst hab
    exact Nat.not_lt.mpr h hb
  rw [Memory.afterReset_read, if_neg (hne 0 (by decide)), if_neg (hne 1 (by decide)), if_neg (hne 2 (by decide)),
    if_neg (hne 3 (by decide))]

/-- Settles O31: the bytes by the buffer's reset values, the outputs because the phase is IDLE and the line LOW. -/
theorem resetStateValues : Obligations.ResetStateValues := by
  have hidle : State.reset.phase = .idle := State.afterReset_phase Config.params
  have hline : State.reset.line = false := State.afterReset_line Config.params
  have hbyte (a : Addr) : State.reset.byte a = (Memory.afterReset Config.params).read a := rfl
  refine ⟨?type0, ?type1, ?channel, ?id, fun a ha => (hbyte a).trans (Memory.afterReset_read_of_four_le _ ha),
    hline, hidle, State.afterReset_sym _, State.afterReset_seg _, State.afterReset_tick _,
    State.cmdReady_of_idle hidle, State.busy_of_idle hidle, fun p => (State.outputs_lineOut _ p).trans hline⟩
  case type0 | type1 | channel | id => simp [hbyte, Memory.afterReset_read]

end Sys2Proof.Machine
end

section
/-! PROOF. The read-back port (R34, R40): what it shows at each address, and that no edge reads its address. -/

namespace Sys2Proof.Machine

@[simp] theorem State.outputs_rdData (s : State) (p : Pins) : (s.outputs p).rdData = s.rdData p.rdAddr := rfl

/-- R40, addresses 0x0 to 0x8. -/
theorem State.rdData_of_toNat_eq (s : State) {r : RdAddr} {a : Addr} (h : r.toNat = a.val) : s.rdData r = s.byte a := by
  have hlt : r.toNat < Config.msgLen := h ▸ a.isLt
  have ha : (⟨r.toNat, hlt⟩ : Addr) = a := Fin.ext h
  rw [State.rdData, dif_pos hlt, ha]

/-- R40, addresses 0x9 to 0xF. -/
theorem State.rdData_of_lt_toNat (s : State) {r : RdAddr} (h : 8 < r.toNat) : s.rdData r = 0x00 :=
  dif_neg (Nat.not_lt.mpr h)

/-- All an edge samples of the input ports is `rst`, `cmd_valid` and the command (R101 to R108). -/
theorem edge_congr_pins (P : Config.Params) {p q : Pins} (s : State) (hrst : p.rst = q.rst)
    (hvalid : p.cmdValid = q.cmdValid) (hcmd : p.command = q.command) : edge P p s = edge P q s := by
  rw [edge, edge, hrst, hvalid, hcmd]

/-- R34: the read-back address has no effect on an edge, since the edge does not sample it. -/
theorem edge_rdAddr (P : Config.Params) (p : Pins) (s : State) (a : RdAddr) :
    edge P { p with rdAddr := a } s = edge P p s :=
  edge_congr_pins P s rfl rfl rfl

/-- A step is an edge with the first listed sample, which leaves the rest. -/
theorem step_pins_cons (s : State) (p : Pins) (rest : List Pins) :
    step { s with pins := p :: rest } = edge Config.params p (s.setPins rest) := rfl

/-- Settles O46: the port's two cases by address, and no side effect because an edge does not sample `rd_addr`. -/
theorem readBackShowsTheBuffer : Obligations.ReadBackShowsTheBuffer := by
  refine ⟨fun s p => ⟨fun a ha => ?stored, fun ha => ?noStorage⟩, edge_rdAddr, fun s p rest a => ?step⟩
  case stored => rw [State.outputs_rdData, State.rdData_of_toNat_eq s ha]
  case noStorage => rw [State.outputs_rdData, State.rdData_of_lt_toNat s ha]
  case step => rw [step_pins_cons, step_pins_cons, edge_rdAddr]

end Sys2Proof.Machine
end

section
/-! PROOF. The decoder and the encoder, opcode by opcode (R48, R49, R52): a decoded word has its own opcode and the used
bits of its operand, and a command is decoded from its own opcode and operand. -/

namespace Sys2Proof

/-- The case split on an opcode, one case for each command of R48. -/
theorem opcode_cases {motive : Opcode → Prop} (setType : motive 0b000) (setChannel : motive 0b001)
    (setId : motive 0b010) (setBattery : motive 0b011) (setTemp : motive 0b100) (setHumidity : motive 0b101)
    (checksum : motive 0b110) (send : motive 0b111) (op : Opcode) : motive op := by
  have hop : ∀ op : Opcode, op = 0b000 ∨ op = 0b001 ∨ op = 0b010 ∨ op = 0b011 ∨ op = 0b100 ∨ op = 0b101 ∨
      op = 0b110 ∨ op = 0b111 := by decide
  rcases hop op with rfl | rfl | rfl | rfl | rfl | rfl | rfl | rfl <;> assumption

section
variable (d : Operand)

theorem decodeFields_setType : decodeFields 0b000 d = .setType d := rfl
theorem decodeFields_setChannel : decodeFields 0b001 d = .setChannel (operandByte d) := rfl
theorem decodeFields_setId : decodeFields 0b010 d = .setId (operandByte d) := rfl
theorem decodeFields_setBattery : decodeFields 0b011 d = .setBattery (operandByte d) := rfl
theorem decodeFields_setTemp : decodeFields 0b100 d = .setTemp d := rfl
theorem decodeFields_setHumidity : decodeFields 0b101 d = .setHumidity (operandByte d) := rfl
theorem decodeFields_checksum : decodeFields 0b110 d = .checksum := rfl
theorem decodeFields_send : decodeFields 0b111 d = .send := rfl

end

/-- data[7:0] in an operand field is the field with its bits 15:8 cleared (R49). -/
theorem setWidth_operandByte (d : Operand) : (operandByte d).setWidth 16 = d &&& 0x00FF := by
  apply BitVec.eq_of_toNat_eq
  have hand : d.toNat &&& 255 = d.toNat % 2 ^ 8 := Nat.and_two_pow_sub_one_eq_mod d.toNat 8
  simp [operandByte, hand]
  omega

/-- A byte put in an operand field is read back from it. -/
theorem operandByte_setWidth (b : Byte) : operandByte (b.setWidth 16) = b :=
  (BitVec.extractLsb'_setWidth_of_le (by decide)).trans BitVec.extractLsb'_eq_self

/-- The command decoded from `op` has the opcode `op` (R52). -/
theorem opcode_decodeFields (op : Opcode) (d : Operand) : (decodeFields op d).opcode = op := by
  cases op using opcode_cases <;> rfl

/-- The command decoded with `op` keeps the operand bits that `op` uses, and the others are 0 (R49). -/
theorem operand_decodeFields (op : Opcode) (d : Operand) : (decodeFields op d).operand = d &&& usedBits op := by
  cases op using opcode_cases with
  | setType => exact BitVec.and_allOnes.symm
  | setChannel => exact setWidth_operandByte d
  | setId => exact setWidth_operandByte d
  | setBattery => exact setWidth_operandByte d
  | setTemp => exact BitVec.and_allOnes.symm
  | setHumidity => exact setWidth_operandByte d
  | checksum => exact BitVec.and_zero.symm
  | send => exact BitVec.and_zero.symm

/-- A command is the one decoded from its own opcode and operand (R48, R54). -/
theorem decodeFields_opcode_operand (i : Instr) : decodeFields i.opcode i.operand = i := by
  cases i with
  | setType t => exact decodeFields_setType t
  | setChannel c => exact (decodeFields_setChannel _).trans (congrArg _ (operandByte_setWidth c))
  | setId i => exact (decodeFields_setId _).trans (congrArg _ (operandByte_setWidth i))
  | setBattery l => exact (decodeFields_setBattery _).trans (congrArg _ (operandByte_setWidth l))
  | setTemp x => exact decodeFields_setTemp x
  | setHumidity h => exact (decodeFields_setHumidity _).trans (congrArg _ (operandByte_setWidth h))
  | checksum => exact decodeFields_checksum 0
  | send => exact decodeFields_send 0

/-- R52: the ignored bits of an operand have no effect on the command decoded. -/
theorem decodeFields_and_usedBits (op : Opcode) (d : Operand) :
    decodeFields op (d &&& usedBits op) = decodeFields op d := by
  have h := decodeFields_opcode_operand (decodeFields op d)
  rwa [opcode_decodeFields, operand_decodeFields] at h

/-- The word of a decoded word is that word with its ignored bits 0 (R52, R54). -/
theorem encode_decode (w : CmdWord) : encode (decode w) = CmdWord.of w.op (w.data &&& usedBits w.op) := by
  rw [encode, decode, opcode_decodeFields, operand_decodeFields]

/-- Words of one opcode that agree on its used bits are one command (R52). -/
theorem decode_eq_of_usedBits_eq {v w : CmdWord} (hop : v.op = w.op)
    (hused : v.data &&& usedBits v.op = w.data &&& usedBits w.op) : decode v = decode w :=
  calc decode v
    _ = decodeFields v.op (v.data &&& usedBits v.op) := (decodeFields_and_usedBits _ _).symm
    _ = decodeFields w.op (w.data &&& usedBits w.op) := by rw [hused, hop]
    _ = decode w := decodeFields_and_usedBits _ _

/-- Settles O4: a decoded word has the used bits of its operand, and these determine the command. -/
theorem ignoredBitsHaveNoEffect : Obligations.IgnoredBitsHaveNoEffect :=
  ⟨fun w => ⟨opcode_decodeFields w.op w.data, encode_decode w⟩, fun _ _ => decode_eq_of_usedBits_eq⟩

/-- Settles O1, from the decoder's equation for each opcode value. -/
theorem opcodeMapNamesEveryCommand : Obligations.OpcodeMapNamesEveryCommand := fun d =>
  ⟨decodeFields_setType d, decodeFields_setChannel d, decodeFields_setId d, decodeFields_setBattery d,
    decodeFields_setTemp d, decodeFields_setHumidity d, decodeFields_checksum d, decodeFields_send d⟩

end Sys2Proof
end

section
/-! PROOF. The assembler on commands whose operands are in range (R54), and the pseudo-commands (R56). -/

namespace Sys2Proof.Machine

/-- An operand in its range is not refused (R54). -/
theorem operandProblem_eq_none {bits n : Nat} (h : n < 2 ^ bits) : operandProblem bits n = none := if_pos h

/-- An operand list is refused exactly when one of its operands is. -/
theorem firstProblem_eq_none_iff (ps : List (Option AsmReason)) : firstProblem ps = none ↔ ∀ p ∈ ps, p = none := by
  induction ps with
  | nil => simp [firstProblem]
  | cons p rest ih => cases p <;> simp [firstProblem, ih]

/-- Three operands none of which is refused, as INIT, READING and REPORT take them (R56). -/
theorem firstProblem_three {p q r : Option AsmReason} (hp : p = none) (hq : q = none) (hr : r = none) :
    firstProblem [p, q, r] = none := by
  simp [firstProblem_eq_none_iff, hp, hq, hr]

/-- A source command with no operand refused assembles to the commands it stands for (R54, R56). -/
theorem assembleCmd_of_problem_eq_none {c : SourceCmd} (h : c.problem = none) :
    assembleCmd c = .ok (SourceCmd.expand c) := by
  rw [assembleCmd, h]

/-- Settles O52: an operand in range is refused neither alone nor in a pseudo-command, and the expansions are R56's. -/
theorem pseudoCommandsExpandInOrder : Obligations.PseudoCommandsExpandInOrder := by
  have half {n : Nat} (h : n ≤ 0xFFFF) : operandProblem 16 n = none := operandProblem_eq_none (by omega)
  have byte {n : Nat} (h : n ≤ 0xFF) : operandProblem 8 n = none := operandProblem_eq_none (by omega)
  have asm {c : SourceCmd} (h : c.problem = none) := assembleCmd_of_problem_eq_none h
  refine ⟨fun t c i ht hc hi => ?init, fun l h x hl hh hx => ?reading⟩
  case init =>
    exact ⟨_, _, _, asm (half ht), asm (byte hc), asm (byte hi),
      asm (c := .init t c i) (firstProblem_three (half ht) (byte hc) (byte hi))⟩
  case reading =>
    have hops : firstProblem [operandProblem 8 l, x.problem, operandProblem 8 h] = none :=
      firstProblem_three (byte hl) hx (byte hh)
    exact ⟨_, _, _, asm (byte hl), asm hx, asm (byte hh), asm (c := .reading l x h) hops,
      asm (c := .report l x h) hops⟩

end Sys2Proof.Machine
end

section
/-! PROOF. What a command leaves alone (R17): the bytes it does not write, the line and the sequencer position unless it
is SEND, and the host's inputs. With it the buffer's write paths: an edge changes a byte by reset or by a command (R33). -/

namespace Sys2Proof.Machine

theorem State.setByte_byte_self (s : State) (a : Addr) (v : Byte) : (s.setByte a v).byte a = v :=
  (s.setByte_byte a a v).trans (if_pos rfl)

theorem State.setByte_byte_of_ne (s : State) {a b : Addr} (v : Byte) (h : b ≠ a) : (s.setByte a v).byte b = s.byte b :=
  (s.setByte_byte a b v).trans (if_neg h)

theorem SameBufferBut.refl (written : List Addr) (s : State) : SameBufferBut written s s := fun _ _ => rfl

/-- One more write keeps the frame when the byte written is among those listed, as by default the bytes a command
writes are. -/
theorem SameBufferBut.setByte {written : List Addr} {s t : State} (h : SameBufferBut written s t) {a : Addr} (v : Byte)
    (ha : a ∈ written := by simp [Instr.writes]) : SameBufferBut written s (t.setByte a v) := fun b hb =>
  (t.setByte_byte_of_ne v (ne_of_mem_of_not_mem ha hb).symm).trans (h b hb)

/-- A command keeps every byte that R17 does not give it. -/
theorem execResult_sameBufferBut (i : Instr) (s : State) : SameBufferBut (Instr.writes i) s (execResult i s) := by
  have start := SameBufferBut.refl (Instr.writes i) s
  cases i with
  | setType t => exact (start.setByte _).setByte _
  | setChannel c => exact start.setByte _
  | setId k => exact start.setByte _
  | setBattery l => exact start.setByte _
  | setTemp x => exact ((start.setByte _).setByte _).setByte _
  | setHumidity h => exact (start.setByte _).setByte _
  | checksum => exact start.setByte _
  | send =>
    have stored : SameBufferBut (Instr.writes .send) s s.storeChecksum := start.setByte _
    exact fun a ha => (s.storeChecksum.startFrame_byte .frame1 a).trans (stored a ha)

/-- A command other than SEND keeps the line and the sequencer position. -/
theorem execResult_samePosition {i : Instr} (hi : i ≠ .send) (s : State) : SamePosition s (execResult i s) := by
  cases i with
  | send => exact absurd rfl hi
  | _ => simp [SamePosition, execResult]

/-- The frame of a command other than SEND. -/
theorem execResult_frame (i : Instr) (s : State) (hi : i ≠ .send) :
    SameBufferBut (Instr.writes i) s (execResult i s) ∧ SamePosition s (execResult i s) ∧ (execResult i s).pins = s.pins :=
  ⟨execResult_sameBufferBut i s, execResult_samePosition hi s, execResult_pins i s⟩

/-- R47: a command presented in IDLE without reset is accepted. -/
theorem State.accepts_of_idle {s : State} {p : Pins} (hrst : p.rst = false) (hidle : s.phase = .idle)
    (hvalid : p.cmdValid = true) : s.accepts p = true := by
  simp [State.accepts, State.cmdReady_of_idle hidle, hrst, hvalid]

/-- A byte that a step changes was changed by reset or by the accepted command, which writes it (R33). -/
theorem rst_or_writes_of_step {s t : State} {a : Addr} (h : step s = .next t) (hne : t.byte a ≠ s.byte a) :
    s.nextPins.rst = true ∨ (s.accepts s.nextPins = true ∧ a ∈ Instr.writes s.nextPins.command) := by
  rw [step_eq_edge] at h
  obtain ⟨hrst, -⟩ | ⟨-, -, -, rfl⟩ | ⟨hrst, hidle, hvalid, rfl⟩ | ⟨-, -, rfl⟩ | ⟨-, -, rfl⟩ := edge_cases h
  · exact .inl hrst
  · exact absurd rfl hne
  · refine .inr ⟨State.accepts_of_idle (s := s) hrst hidle hvalid, ?_⟩
    by_contra ha
    exact hne (execResult_sameBufferBut _ _ a ha)
  · exact absurd (State.byte_congr (s.dropPins.frameEdge_buf _) a) hne
  · exact absurd (State.byte_congr (s.dropPins.gapEdge_buf _) a) hne

end Sys2Proof.Machine
end

section
/-! PROOF. The identity commands SETTYPE, SETCHANNEL and SETID (R59 to R61). -/

namespace Sys2Proof.Machine

/-- R17: SETID alone writes byte 3. -/
theorem exists_eq_setId_of_mem_writes {i : Instr} (h : (3 : Addr) ∈ Instr.writes i) : ∃ k, i = .setId k := by
  cases i with
  | setId k => exact ⟨k, rfl⟩
  | _ => simp [Instr.writes] at h

/-- Settles O7: the write by SETID's meaning, and no other path because SETID alone writes byte 3. -/
theorem setIdAloneChangesTheIdByte : Obligations.SetIdAloneChangesTheIdByte := by
  refine ⟨fun d s => ⟨decodeFields_setId d, _, exec_eq_execResult _ s, s.setByte_byte_self 3 _,
    execResult_frame (.setId _) s nofun⟩, fun s t hstep hne => ?only⟩
  case only =>
    exact (rst_or_writes_of_step hstep hne).imp_right (And.imp_right exists_eq_setId_of_mem_writes)

/-- Settles O5: the second write, to byte 1, leaves byte 0 as the first one set it. -/
theorem setTypeStoresBothOperandBytes : Obligations.SetTypeStoresBothOperandBytes := by
  intro d s
  have hfirst : (execResult (.setType d) s).byte 0 = typeFirst d :=
    (State.setByte_byte_of_ne _ _ (by decide)).trans (s.setByte_byte_self 0 _)
  exact ⟨decodeFields_setType d, _, exec_eq_execResult _ s, hfirst, State.setByte_byte_self _ 1 _,
    execResult_frame (.setType d) s nofun⟩

/-- Settles O6: SETCHANNEL is one write. -/
theorem setChannelStoresItsByteUnchanged : Obligations.SetChannelStoresItsByteUnchanged := fun d s =>
  ⟨decodeFields_setChannel d, _, exec_eq_execResult _ s, s.setByte_byte_self 2 _,
    execResult_frame (.setChannel _) s nofun⟩

end Sys2Proof.Machine
end

section
/-! PROOF. The reading commands SETBATTERY, SETTEMP and SETHUMIDITY (R62 to R69): the digits of their operands, the bytes
they write, and the nibbles of those bytes. -/

namespace Sys2Proof.Machine

/-- data[7:0] as a number (R51). -/
theorem operandByte_toNat (d : Operand) : (operandByte d).toNat = d.toNat % 256 := by
  simp [operandByte]

theorem operandByte_eq_zero_iff (d : Operand) : operandByte d = 0 ↔ d.toNat % 256 = 0 := by
  rw [← operandByte_toNat, BitVec.toNat_eq]
  rfl

/-- R63: the magnitude of a 16-bit temperature. -/
theorem tempMagnitude_le (x : Operand) : tempMagnitude x ≤ 32768 := by
  have hlow : -2 ^ 16 ≤ 2 * x.toInt := BitVec.le_two_mul_toInt
  have hhigh : 2 * x.toInt < 2 ^ 16 := BitVec.two_mul_toInt_lt
  unfold tempMagnitude tempValue
  omega

/-- R66: byte 5 has the tens, cut to four bits, in its high nibble. -/
theorem highNibble_tempDigitsByte (x : Operand) : (highNibble (tempDigitsByte x)).toNat = tempTens x % 16 := by
  have hunits : tempUnits x < 10 := Nat.mod_lt _ (by decide)
  rw [highNibble_toNat, tempDigitsByte_toNat]
  omega

/-- R65, R66: byte 5 has the units digit in its low nibble, at every magnitude. -/
theorem lowNibble_tempDigitsByte (x : Operand) : (lowNibble (tempDigitsByte x)).toNat = tempUnits x := by
  have hunits : tempUnits x < 10 := Nat.mod_lt _ (by decide)
  rw [lowNibble_toNat, tempDigitsByte_toNat]
  omega

/-- R69: the tens of any humidity operand fit in byte 7. -/
theorem humTens_le (h : Byte) : humTens h ≤ 25 := by
  have := h.isLt
  unfold humTens
  omega

theorem toNat_u8_humTens (h : Byte) : (u8 (humTens h)).toNat = humTens h :=
  (BitVec.toNat_ofNat _ _).trans (Nat.mod_eq_of_lt (by have := humTens_le h; omega))

/-- A digit ORed into a byte's high nibble leaves its low nibble (R65, R68). -/
theorem lowNibble_or_digitHigh (b : Byte) (n : Nat) : lowNibble (b ||| digitHigh n) = lowNibble b := by
  rw [lowNibble_or, lowNibble_digitHigh]
  exact BitVec.or_zero

theorem highNibble_or_digitHigh (b : Byte) (n : Nat) :
    highNibble (b ||| digitHigh n) = highNibble b ||| BitVec.ofNat 4 n := by
  rw [highNibble_or, highNibble_digitHigh]

section
variable (x : Operand) (h : Byte) (s : State)

/-- R65: the tenths digit is ORed into byte 4. -/
theorem execResult_setTemp_byte_four :
    (execResult (.setTemp x) s).byte 4 = s.byte 4 ||| digitHigh (tempTenths x) := by
  simp [execResult]

/-- R65: byte 5 is replaced by the tens and units. -/
theorem execResult_setTemp_byte_five : (execResult (.setTemp x) s).byte 5 = tempDigitsByte x := by
  simp [execResult]

/-- R63: byte 6 is replaced by the sign. -/
theorem execResult_setTemp_byte_six : (execResult (.setTemp x) s).byte 6 = signCode x := by
  simp [execResult]

/-- R68: the units digit is ORed into byte 6. -/
theorem execResult_setHumidity_byte_six :
    (execResult (.setHumidity h) s).byte 6 = s.byte 6 ||| digitHigh (humUnits h) := by
  simp [execResult]

/-- R68: byte 7 is replaced by the tens. -/
theorem execResult_setHumidity_byte_seven : (execResult (.setHumidity h) s).byte 7 = u8 (humTens h) := by
  simp [execResult]

end

/-- R63: byte 6 is one of two codes. -/
theorem signCode_eq_or (x : Operand) : signCode x = 0x00 ∨ signCode x = 0x08 :=
  (ite_eq_or_eq _ _ _).symm

/-- Settles O9: the digits are the model's own once M is the magnitude of T. -/
theorem setTempWritesSignAndDigits : Obligations.SetTempWritesSignAndDigits := by
  rintro d s _ M _ _ _ _ rfl hM rfl rfl rfl rfl
  obtain rfl : M = tempMagnitude d := by
    unfold tempMagnitude tempValue
    split at hM <;> omega
  have hmag := tempMagnitude_le d
  exact ⟨decodeFields_setTemp d, hmag, by omega, by omega, by omega, by omega, _, exec_eq_execResult _ s,
    execResult_setTemp_byte_six d s, execResult_setTemp_byte_five d s, execResult_setTemp_byte_four d s,
    execResult_frame (.setTemp d) s nofun⟩

/-- Settles O10: the nibbles of what SETTEMP writes, whatever the magnitude; only the tens lose bits. -/
theorem largeTemperaturesCutTheTensNibble : Obligations.LargeTemperaturesCutTheTensNibble := by
  refine ⟨fun d s I _ hI => ⟨_, exec_eq_execResult _ s, ?_⟩, by decide, by decide, by decide, by decide⟩
  subst hI
  rw [execResult_setTemp_byte_four, execResult_setTemp_byte_five, execResult_setTemp_byte_six]
  exact ⟨highNibble_tempDigitsByte d, lowNibble_tempDigitsByte d, by omega, highNibble_or_digitHigh _ _,
    lowNibble_or_digitHigh _ _, signCode_eq_or d⟩

/-- Settles O8: SETBATTERY is one write, of the code for the level in data[7:0]. -/
theorem setBatteryReplacesByteFour : Obligations.SetBatteryReplacesByteFour := by
  intro d s
  have hbyte : (execResult (.setBattery (operandByte d)) s).byte 4 = batteryCode (operandByte d) :=
    s.setByte_byte_self 4 _
  exact ⟨decodeFields_setBattery d, _, exec_eq_execResult _ s,
    fun hlow => hbyte.trans (if_pos ((operandByte_eq_zero_iff d).mpr hlow)),
    fun hok => hbyte.trans (if_neg (mt (operandByte_eq_zero_iff d).mp hok)), execResult_frame (.setBattery _) s nofun⟩

/-- Settles O12: byte 7 holds the whole quotient, and the OR reaches byte 6's high nibble only. -/
theorem setHumidityWritesTensAndOrsUnits : Obligations.SetHumidityWritesTensAndOrsUnits := by
  refine ⟨?writes, by decide, by decide, by decide, by decide⟩
  rintro d s _ _ _ rfl rfl rfl
  rw [← operandByte_toNat]
  have hH := (operandByte d).isLt
  refine ⟨decodeFields_setHumidity d, by omega, humTens_le _, by omega, execResult (.setHumidity (operandByte d)) s,
    exec_eq_execResult _ s, ?_⟩
  rw [execResult_setHumidity_byte_six, execResult_setHumidity_byte_seven]
  exact ⟨toNat_u8_humTens _, rfl, lowNibble_or_digitHigh _ _, highNibble_or_digitHigh _ _,
    execResult_frame (.setHumidity _) s nofun⟩

end Sys2Proof.Machine
end

section
/-! PROOF. CHECKSUM (R72 to R74): how large the nibble sum can be, and the checksum as a number on both sides of its
wrap. -/

namespace Sys2Proof.Machine

/-- R72: a byte's nibbles add up to at most 15 + 15. -/
theorem nibbleSum_le (b : Byte) : nibbleSum b ≤ 30 := by
  have := b.isLt
  rw [nibbleSum_eq]
  omega

/-- R72: the eight bytes summed are eight times at most 30. -/
theorem nsum_chkCount_le (m : Memory) : nsum m Config.chkCount ≤ 240 := by
  rw [nsum_chkCount]
  refine (List.sum_le_card_nsmul _ 30 fun n hn => ?_).trans_eq (by simp)
  obtain ⟨a, -, rfl⟩ := List.mem_map.mp hn
  exact nibbleSum_le _

/-- R73: subtracting 10 mod 256 borrows 256 exactly when the sum is below 10. -/
theorem chk_toNat (m : Memory) :
    (chk m).toNat =
      if nsum m Config.chkCount < 10 then 246 + nsum m Config.chkCount else nsum m Config.chkCount - 10 := by
  have hle := nsum_chkCount_le m
  rw [chk, Config.chkOffset, BitVec.toNat_ofInt]
  split <;> omega

/-- Settles O13: the statement's N is the model's nibble sum, and CHECKSUM is one write, of the checksum. -/
theorem checksumStoresNibbleSumMinusTen : Obligations.ChecksumStoresNibbleSumMinusTen := by
  intro d s N hN
  obtain rfl : N = nsum s.buf Config.chkCount := by
    simp only [hN, nsum_chkCount, nibbleSum_eq, State.byte]
  have hbyte : (execResult .checksum s).byte 8 = chk s.buf := s.setByte_byte_self 8 _
  exact ⟨decodeFields_checksum d, nsum_chkCount_le s.buf, _, exec_eq_execResult _ s,
    (congrArg BitVec.toNat hbyte).trans (chk_toNat s.buf), execResult_frame .checksum s nofun⟩

end Sys2Proof.Machine
end

section
/-! PROOF. The serializer's bytes, bits and symbols (R79 to R84): the twelve bytes of a frame, and the bits of its
preamble, its message and its postamble. -/

namespace Sys2Proof.Machine

section
variable (m : Memory)

/-- R79: preamble, message and postamble, byte by byte. -/
theorem frameBytes_eq : frameBytes m = [0xFF, 0xFF, m.read 0, m.read 1, m.read 2, m.read 3, m.read 4, m.read 5,
    m.read 6, m.read 7, m.read 8, 0x00] := by
  rw [frameBytes, Memory.bytes_eq]
  rfl

/-- R80: the first two bytes of a frame are ones. -/
theorem frameBytes_getD_preamble {i : Nat} (hi : i < 2) : (frameBytes m).getD i 0 = 0xFF := by
  rw [frameBytes_eq]
  interval_cases i <;> rfl

/-- R79: the message follows the two bytes of the preamble. -/
theorem frameBytes_getD_message (a : Addr) : (frameBytes m).getD (2 + a.val) 0 = m.read a := by
  rw [frameBytes_eq]
  fin_cases a <;> rfl

/-- R81: the last byte of a frame is zero. -/
theorem frameBytes_getD_postamble : (frameBytes m).getD 11 0 = 0x00 := by
  rw [frameBytes_eq]
  rfl

/-- R82: the eight symbols of a byte are its bits, least significant first. -/
theorem frameBit_eight_mul_add (i : Nat) {j : Nat} (hj : j < 8) :
    frameBit m (8 * i + j) = ((frameBytes m).getD i 0).getLsbD j := by
  rw [frameBit, show (8 * i + j) / 8 = i by omega, show (8 * i + j) % 8 = j by omega]

/-- R80: the preamble's sixteen symbols are ones. -/
theorem frameBit_preamble {k : Nat} (hk : k < 16) : frameBit m k = true := by
  have hones : ∀ j < 8, (0xFF : Byte).getLsbD j = true := by decide
  rw [frameBit, frameBytes_getD_preamble m (by omega)]
  exact hones _ (Nat.mod_lt k (by decide))

/-- R82, R83: symbols 16 + 8a to 16 + 8a + 7 are the bits of message byte a. -/
theorem frameBit_message (a : Addr) {j : Nat} (hj : j < 8) :
    frameBit m (16 + 8 * a.val + j) = (m.read a).getLsbD j :=
  calc frameBit m (16 + 8 * a.val + j)
    _ = frameBit m (8 * (2 + a.val) + j) := by rw [Nat.mul_add]
    _ = ((frameBytes m).getD (2 + a.val) 0).getLsbD j := frameBit_eight_mul_add m _ hj
    _ = (m.read a).getLsbD j := by rw [frameBytes_getD_message]

/-- R81: the postamble's eight symbols are zeros. -/
theorem frameBit_postamble {k : Nat} (hlow : 88 ≤ k) (hhigh : k < 96) : frameBit m k = false := by
  rw [frameBit, show k / 8 = 11 by omega, frameBytes_getD_postamble]
  exact BitVec.getLsbD_zero

end

/-- Settles O24: the frame's bytes, and the bits of its three parts. -/
theorem frameBitsAreLeastSignificantFirst : Obligations.FrameBitsAreLeastSignificantFirst := fun m =>
  ⟨frameBytes_eq m, fun _ => frameBit_preamble m, fun a _ => frameBit_message m a, fun _ => frameBit_postamble m⟩

/-- R84: a zero bit's outer segments are HIGH. -/
theorem symWave_false : symWave false = [⟨true, 1⟩, ⟨false, 2⟩, ⟨true, 1⟩] := rfl

/-- R84: a one bit's outer segments are LOW. -/
theorem symWave_true : symWave true = [⟨false, 1⟩, ⟨true, 2⟩, ⟨false, 1⟩] := rfl

/-- Settles O25: the two symbols, the three lengths, and `lvl` as it is defined. -/
theorem symbolsHaveThreeSegments : Obligations.SymbolsHaveThreeSegments :=
  ⟨symWave_false, symWave_true, rfl, rfl, rfl, fun _ _ => rfl⟩

end Sys2Proof.Machine
end

section
/-! PROOF. The edge rules R100 to R107: which edge each phase, sample and cycle count calls for, and where the sequencer
stands after it. -/

namespace Sys2Proof.Machine

theorem SamePosition.refl (s : State) : SamePosition s s := ⟨rfl, rfl, rfl, rfl, rfl⟩

-- An edge of an idle block, and a reset edge (R101 to R104)

/-- R102: an idle block to which nothing is presented is left as it is. -/
theorem step_of_idle_of_not_valid {s : State} (hrst : s.nextPins.rst = false) (hidle : s.phase = .idle)
    (hvalid : s.nextPins.cmdValid = false) : step s = .next s.dropPins := by
  rw [step_of_idle s hrst hidle, hvalid, if_neg Bool.false_ne_true]

/-- R103, R104: an idle block runs the command presented. -/
theorem edge_of_idle_of_valid (P : Config.Params) {p : Pins} {s : State} (hrst : p.rst = false)
    (hidle : s.phase = .idle) (hvalid : p.cmdValid = true) : edge P p s = exec p.command s := by
  rw [edge_of_idle P p s hrst hidle, if_pos hvalid]

/-- R48: opcode 7 on the port is SEND, whatever the operand. -/
theorem Pins.command_of_cmdOp_send {p : Pins} (h : p.cmdOp = 0b111) : p.command = .send := by
  rw [Pins.command, h, decodeFields_send]

/-- R104: the checksum that SEND stores. -/
theorem execResult_send_byte_eight (s : State) : (execResult .send s).byte 8 = chk s.buf :=
  s.setByte_byte_self 8 _

/-- R101: what a byte reads as after a reset edge does not depend on the state before. -/
theorem State.resetEdge_byte (P : Config.Params) (s : State) (a : Addr) :
    (s.resetEdge P).byte a = (State.afterReset P).byte a := rfl

/-- Settles O14: at an accepting edge in IDLE the edge is the command's meaning, here SEND's. -/
theorem sendStoresChecksumAndStartsFirstFrame : Obligations.SendStoresChecksumAndStartsFirstFrame := by
  intro P p s hrst hidle hvalid hop
  have hedge : edge P p s = exec .send s := by
    rw [edge_of_idle_of_valid P hrst hidle hvalid, Pins.command_of_cmdOp_send hop]
  have hexec := exec_eq_execResult .send s
  exact ⟨execResult .send s, hexec, hedge.trans hexec, execResult_send_byte_eight s, execResult_sameBufferBut .send s,
    rfl, rfl, rfl, rfl, State.startFrame_line _ _, drivenLevel_start _, execResult_pins .send s⟩

/-- Settles O32: the reset edge, whose result is the reset state but for the samples still to come. -/
theorem resetEdgeRestoresEveryElement : Obligations.ResetEdgeRestoresEveryElement := fun s hrst =>
  ⟨_, step_of_rst s hrst, State.resetEdge_byte _ _, State.resetEdge_line _ _, State.resetEdge_phase _ _,
    State.resetEdge_sym _ _, State.resetEdge_seg _ _, State.resetEdge_tick _ _, State.resetEdge_pins _ _⟩

/-- Settles O33: all that a step without reset or command takes from an idle block is its input sample. -/
theorem idleWithoutCommandKeepsTheState : Obligations.IdleWithoutCommandKeepsTheState := fun s hrst hidle hvalid =>
  ⟨s.dropPins, step_of_idle_of_not_valid hrst hidle hvalid, s.dropPins_buf, SamePosition.refl s, s.dropPins_pins⟩

-- An edge in a frame (R105 to R107)

theorem eq_lastSym_iff (k : Sym) : k = lastSym ↔ k.val = 95 := Fin.ext_iff

theorem eq_lastSeg_iff (g : Seg) : g = lastSeg ↔ g.val = 2 := Fin.ext_iff

section
variable {P : Config.Params} {s : State}

/-- R105. -/
theorem State.frameEdge_of_tick_lt (ht : s.tick + 1 < segCycles P s.seg) : s.frameEdge P = s.tickOn := if_pos ht

/-- R106. -/
theorem State.frameEdge_of_not_last (ht : s.tick + 1 = segCycles P s.seg)
    (hpos : ¬(s.sym = lastSym ∧ s.seg = lastSeg)) : s.frameEdge P = s.nextSegment := by
  rw [State.frameEdge, if_neg ht.not_lt, if_neg hpos]

/-- R107. -/
theorem State.frameEdge_of_last (ht : s.tick + 1 = segCycles P s.seg) (hsym : s.sym = lastSym)
    (hseg : s.seg = lastSeg) : s.frameEdge P = s.endFrame := by
  rw [State.frameEdge, if_neg ht.not_lt, if_pos ⟨hsym, hseg⟩]

end

section
variable {s : State}

/-- R106: before a symbol's last segment the symbol goes on. -/
theorem State.nextSegment_of_seg_lt (h : s.seg.val < 2) :
    s.nextSegment.seg.val = s.seg.val + 1 ∧ s.nextSegment.sym = s.sym := by
  have hseg : s.seg ≠ lastSeg := mt (eq_lastSeg_iff _).mp (by omega)
  rw [State.nextSegment_seg, State.nextSegment_sym, if_neg hseg, if_neg hseg]
  exact ⟨Fin.val_add_one_of_lt h, rfl⟩

/-- R106: a symbol's last segment is followed by the next symbol's first. -/
theorem State.nextSegment_of_seg_last (hseg : s.seg = lastSeg) (hsym : s.sym ≠ lastSym) :
    s.nextSegment.seg.val = 0 ∧ s.nextSegment.sym.val = s.sym.val + 1 := by
  rw [State.nextSegment_seg, State.nextSegment_sym, if_pos hseg, if_pos hseg]
  exact ⟨rfl, Fin.val_add_one_of_lt (Fin.lt_last_iff_ne_last.mpr hsym)⟩

/-- R107: after FRAME1 comes the gap. -/
theorem State.endFrame_phase_of_frame1 (h : s.phase = .frame1) : s.endFrame.phase = .gap := by
  rw [State.endFrame_phase, if_pos h]

/-- R107: after FRAME2 the SEND is over. -/
theorem State.endFrame_phase_of_frame2 (h : s.phase = .frame2) : s.endFrame.phase = .idle := by
  rw [State.endFrame_phase, h, if_neg (by decide)]

end

/-- R21: a block outside IDLE is not ready for a command. -/
theorem State.cmdReady_of_ne_idle {s : State} (h : s.phase ≠ .idle) : s.cmdReady = false := decide_eq_false h

/-- Settles O35: the frame's edge with cycles of the segment left, which is `tickOn`. -/
theorem insideASegmentOnlyTickMoves : Obligations.InsideASegmentOnlyTickMoves := by
  intro s hrst hframe ht
  have hstep := step_of_frame s hrst hframe
  rw [State.frameEdge_of_tick_lt (s := s.dropPins) ht] at hstep
  exact ⟨_, hstep, State.tickOn_tick _, State.tickOn_phase _, State.tickOn_sym _, State.tickOn_seg _,
    State.tickOn_line _, State.tickOn_byte _, State.tickOn_pins _⟩

/-- Settles O36: the frame's edge at the segment's end is `nextSegment`; the symbol index does not wrap there because the
frame's last segment is excluded. -/
theorem endOfSegmentMovesOn : Obligations.EndOfSegmentMovesOn := by
  intro s hrst hframe ht hpos
  have hpos : ¬(s.sym = lastSym ∧ s.seg = lastSeg) := by rwa [eq_lastSym_iff, eq_lastSeg_iff]
  have hstep := step_of_frame s hrst hframe
  rw [State.frameEdge_of_not_last (s := s.dropPins) ht hpos] at hstep
  refine ⟨_, hstep, State.nextSegment_tick _, State.nextSegment_of_seg_lt (s := s.dropPins), fun hseg => ?last,
    State.nextSegment_line _, State.nextSegment_phase _, State.nextSegment_byte _, State.nextSegment_pins _⟩
  case last =>
    have hseg : s.seg = lastSeg := (eq_lastSeg_iff _).mpr hseg
    exact State.nextSegment_of_seg_last (s := s.dropPins) hseg fun hsym => hpos ⟨hsym, hseg⟩

/-- Settles O37: the frame's edge at its last cycle is `endFrame`, and the status outputs follow from its phase. -/
theorem endOfFrameGoesLow : Obligations.EndOfFrameGoesLow := by
  intro s hrst hframe hsym hseg ht
  have hstep := step_of_frame s hrst hframe
  rw [State.frameEdge_of_last (s := s.dropPins) ht ((eq_lastSym_iff _).mpr hsym) ((eq_lastSeg_iff _).mpr hseg)] at hstep
  refine ⟨_, hstep, State.endFrame_sym _, State.endFrame_seg _, State.endFrame_tick _, State.endFrame_line _,
    fun h => ?frame1, fun h => ?frame2, State.endFrame_byte _, State.endFrame_pins _⟩
  case frame1 =>
    have hgap := State.endFrame_phase_of_frame1 (s := s.dropPins) h
    exact ⟨hgap, State.cmdReady_of_ne_idle (hgap.trans_ne (by decide))⟩
  case frame2 =>
    have hidle := State.endFrame_phase_of_frame2 (s := s.dropPins) h
    exact ⟨hidle, State.busy_of_idle hidle, State.cmdReady_of_idle hidle⟩

-- The status outputs, and a command presented to a busy block (R100)

theorem State.cmdReady_iff (s : State) : s.cmdReady = true ↔ s.phase = .idle := decide_eq_true_iff

theorem State.busy_iff (s : State) : s.busy = true ↔ s.phase ≠ .idle := decide_eq_true_iff

/-- R47: a block that is not ready accepts nothing. -/
theorem State.accepts_of_not_ready {s : State} (p : Pins) (h : s.cmdReady = false) : s.accepts p = false := by
  rw [State.accepts, h, Bool.and_false]

/-- R100: outside IDLE an edge depends on no input but `rst`. -/
theorem edge_congr_rst (P : Config.Params) {p q : Pins} {s : State} (hphase : s.phase ≠ .idle) (hrst : p.rst = q.rst) :
    edge P p s = edge P q s := by
  rw [edge, edge, hrst]
  cases hs : s.phase with
  | idle => exact absurd hs hphase
  | frame1 | gap | frame2 => rfl

/-- Settles O39: not ready is not IDLE, and there the edge samples `rst` alone. -/
theorem commandsHaveNoEffectWhileBusy : Obligations.CommandsHaveNoEffectWhileBusy := by
  refine fun P p s => ⟨s.cmdReady_iff, s.busy_iff, fun hready hrst => ⟨State.accepts_of_not_ready p hready, ?edge⟩⟩
  case edge => exact edge_congr_rst P (of_decide_eq_false hready) hrst

end Sys2Proof.Machine
end

section
/-! PROOF. The encoder inverted by the decoder (R45, R48, R54), and the spec's own words decoded. -/

namespace Sys2Proof

/-- The fields of a command's word are its opcode and operand, from which the command is decoded (R45, R48). -/
theorem decode_encode (i : Instr) : decode (encode i) = i := by
  rw [decode, encode, Machine.op_of, Machine.data_of, decodeFields_opcode_operand]

/-- Settles O3: a command is the one decoded from the two fields of its word. -/
theorem decodeOfEncodeIsTheCommand : Obligations.DecodeOfEncodeIsTheCommand := fun i _ => decode_encode i

/-- Settles O2: ten closed words. -/
theorem specWordsDecodeToTheirCommands : Obligations.SpecWordsDecodeToTheirCommands := by
  unfold Obligations.SpecWordsDecodeToTheirCommands
  decide

end Sys2Proof
end

section
/-! PROOF. The invariants of R29 and the buffer's canonical form: they hold after reset, and every edge keeps them. -/

namespace Sys2Proof.Machine

section
variable {P : Config.Params} {s t : State}

/-- R29 in IDLE: the line LOW and the counters 0. -/
theorem State.OnSchedule.of_idle (hphase : s.phase = .idle)
    (hrest : s.line = false ∧ s.sym = 0 ∧ s.seg = 0 ∧ s.tick = 0) : s.OnSchedule P :=
  ⟨fun _ => hrest, by simp [hphase], by simp [hphase]⟩

/-- R29 speaks of the buffer, the line and the sequencer position alone. -/
theorem State.OnSchedule.congr (hi : s.OnSchedule P) (hbuf : t.buf = s.buf) (hpos : SamePosition s t) :
    t.OnSchedule P := by
  obtain ⟨hline, hphase, hsym, hseg, htick⟩ := hpos
  constructor <;> rw [hphase, hline, hsym, hseg, htick]
  · exact hi.idle
  · rw [hbuf]
    exact hi.frame
  · exact hi.gap

/-- What the host will drive is no part of the invariant. -/
theorem State.Inv.dropPins (hi : s.Inv P) : s.dropPins.Inv P :=
  ⟨hi.bufWf, hi.onSchedule.congr s.dropPins_buf (SamePosition.refl s)⟩

end

/-- Position 0 of a frame meets R29, whatever the buffer holds. -/
theorem State.startFrame_onSchedule (P : Config.Params) (s : State) {ph : Phase} (h : ph = .frame1 ∨ ph = .frame2) :
    (s.startFrame ph).OnSchedule P := by
  refine ⟨fun hidle => ?_, fun _ => ⟨segCycles_pos P 0, State.startFrame_line s ph⟩, fun hgap => ?_⟩
  · rw [State.startFrame_phase] at hidle
    simp [hidle] at h
  · rw [State.startFrame_phase] at hgap
    simp [hgap] at h

/-- R29 after a reset edge. -/
theorem State.resetEdge_inv (P : Config.Params) (s : State) : (s.resetEdge P).Inv P :=
  ⟨Memory.afterReset_wf P, .of_idle (State.resetEdge_phase s P) ⟨rfl, rfl, rfl, rfl⟩⟩

/-- A command accepted in IDLE keeps R29: SEND starts a frame, and no other command moves the sequencer. -/
theorem execResult_onSchedule {P : Config.Params} {s : State} (i : Instr) (hi : s.OnSchedule P)
    (hidle : s.phase = .idle) : (execResult i s).OnSchedule P := by
  by_cases hsend : i = .send
  · subst hsend
    exact State.startFrame_onSchedule P _ (.inl rfl)
  · obtain ⟨hline, hphase, hsym, hseg, htick⟩ := execResult_samePosition hsend s
    refine .of_idle (hphase.trans hidle) ?_
    rw [hline, hsym, hseg, htick]
    exact hi.idle hidle

/-- Every edge keeps the invariant, for every choice of the parameters. -/
theorem edge_inv {P : Config.Params} {p : Pins} {s t : State} (hi : s.Inv P) (h : edge P p s = .next t) : t.Inv P := by
  obtain ⟨-, rfl⟩ | ⟨-, -, -, rfl⟩ | ⟨-, hidle, -, rfl⟩ | ⟨-, hframe, rfl⟩ | ⟨-, hgap, rfl⟩ := edge_cases h
  · exact s.resetEdge_inv P
  · exact hi
  · exact ⟨execResult_wf _ s hi.bufWf, execResult_onSchedule _ hi.onSchedule hidle⟩
  · exact ⟨s.frameEdge_buf P ▸ hi.bufWf, frameEdge_onSchedule P s hi.onSchedule hframe⟩
  · exact ⟨s.gapEdge_buf P ▸ hi.bufWf, gapEdge_onSchedule P s hi.onSchedule hgap⟩

/-- Settles O43: a step is an edge once its input sample is used up. -/
theorem everyStepKeepsTheInvariant : Obligations.EveryStepKeepsTheInvariant := fun _ _ hi hstep =>
  edge_inv hi.dropPins hstep

/-- Settles O44: the reset state is a reset edge's result. -/
theorem resetMeetsTheInvariant : Obligations.ResetMeetsTheInvariant :=
  State.resetEdge_inv Config.params State.reset

end Sys2Proof.Machine
end

section
/-! PROOF. The machine never stops (R109, R115). -/

namespace Sys2Proof.Machine

/-- R115: every edge answers a next state. -/
theorem exists_edge (P : Config.Params) (p : Pins) (s : State) : ∃ t, edge P p s = .next t := by
  cases hrst : p.rst with
  | true => exact ⟨_, edge_of_rst P p s hrst⟩
  | false =>
    cases hphase : s.phase with
    | idle =>
      rw [edge_of_idle P p s hrst hphase, exec_eq_execResult]
      split <;> exact ⟨_, rfl⟩
    | frame1 => exact ⟨_, edge_of_frame P p s hrst (.inl hphase)⟩
    | gap => exact ⟨_, edge_of_gap P p s hrst hphase⟩
    | frame2 => exact ⟨_, edge_of_frame P p s hrst (.inr hphase)⟩

/-- R109: every step answers a next state. -/
theorem exists_step (s : State) : ∃ t, step s = .next t := exists_edge _ _ s.dropPins

/-- Settles O45: no edge and no command stops. -/
theorem everyStepAnswersANextState : Obligations.EveryStepAnswersANextState :=
  ⟨exists_step, fun i s => ⟨_, exec_eq_execResult i s⟩⟩

end Sys2Proof.Machine
end

section
/-! PROOF. A whole SEND, cycle by cycle (R92, R109, R110): from its accepting edge every step is one cycle on until the
block is back in IDLE, where it rests until the next SEND. -/

namespace Sys2Proof.Machine

/-- The sample of the next edge is one of those listed, or that of a host that drives nothing (log 2). -/
theorem State.nextPins_mem_or_quiet (s : State) : s.nextPins ∈ s.pins ∨ s.nextPins = Pins.quiet := by
  rw [State.nextPins]
  cases s.pins with
  | nil => exact .inr rfl
  | cons p rest => exact .inl List.mem_cons_self

/-- No listed sample resets the block, so the next edge does not (log 2). -/
theorem State.nextPins_rst_of_forall {s : State} (h : ∀ q ∈ s.pins, q.rst = false) : s.nextPins.rst = false := by
  obtain hmem | hquiet := s.nextPins_mem_or_quiet
  · exact h _ hmem
  · rw [hquiet]
    rfl

/-- R110: the SEND is over at cycle 784 × TIME_CYCLES. -/
theorem idle_iff_elapsed {P : Config.Params} {s : State} (hi : s.OnSchedule P) :
    s.phase = .idle ↔ elapsed P s = 784 * P.timeCycles :=
  (phase_of_elapsed P s hi).2.2.2

/-- R104: a frame that starts as the first one is in cycle 0. -/
theorem elapsed_startFrame_frame1 (P : Config.Params) (s : State) : elapsed P (s.startFrame .frame1) = 0 := by
  simp [elapsed, posUnits, segStart]

/-- Without reset a SEND runs on, one cycle a step, as long as it is not over, and keeps the buffer it sends. -/
theorem run_of_busy (n : Nat) (s : State) (hi : s.OnSchedule Config.params) (hrst : ∀ q ∈ s.pins, q.rst = false)
    (hn : elapsed Config.params s + n ≤ 784 * Config.params.timeCycles) :
    ∃ t : State, Host.Core.run Sys2Proof.core n s = .next t ∧ t.OnSchedule Config.params ∧ t.buf = s.buf ∧
      t.pins = s.pins.drop n ∧ elapsed Config.params t = elapsed Config.params s + n := by
  induction n generalizing s with
  | zero => exact ⟨s, rfl, hi, rfl, rfl, rfl⟩
  | succ n ih =>
    have hbusy : s.phase ≠ .idle := fun h => by
      rw [idle_iff_elapsed hi] at h
      omega
    have hdrop := hi.congr s.dropPins_buf (SamePosition.refl s)
    obtain ⟨u, hstep, hu, hbuf, hpins, helapsed⟩ :=
      edge_of_busy _ s.nextPins s.dropPins hdrop (State.nextPins_rst_of_forall hrst) hbusy
    have hpins : u.pins = s.pins.tail := hpins
    have helapsed : elapsed Config.params u = elapsed Config.params s + 1 := helapsed
    obtain ⟨t, hrun, ht, htbuf, htpins, htelapsed⟩ :=
      ih u hu (fun q hq => hrst q (List.mem_of_mem_tail (hpins ▸ hq))) (by omega)
    refine ⟨t, (run_succ n hstep).trans hrun, ht, htbuf.trans hbuf, ?_, by omega⟩
    rw [htpins, hpins, List.drop_tail]

/-- A sample that presents no SEND. -/
def Pins.NoSend (p : Pins) : Prop := ¬(p.cmdValid = true ∧ p.command = .send)

/-- R95: an edge without reset and without SEND leaves an idle block idle, its line LOW. -/
theorem step_of_idle_of_noSend {s : State} (hi : s.OnSchedule Config.params) (hidle : s.phase = .idle)
    (hrst : s.nextPins.rst = false) (hsend : s.nextPins.NoSend) :
    ∃ t, step s = .next t ∧ t.OnSchedule Config.params ∧ t.phase = .idle ∧ t.pins = s.pins.tail := by
  have hdrop := hi.congr s.dropPins_buf (SamePosition.refl s)
  cases hvalid : s.nextPins.cmdValid with
  | false => exact ⟨s.dropPins, step_of_idle_of_not_valid hrst hidle hvalid, hdrop, hidle, rfl⟩
  | true =>
    have hne : s.nextPins.command ≠ .send := fun h => hsend ⟨hvalid, h⟩
    refine ⟨execResult s.nextPins.command s.dropPins, ?_, execResult_onSchedule _ hdrop hidle,
      (execResult_samePosition hne _).2.1.trans hidle, execResult_pins _ _⟩
    rw [step_of_idle s hrst hidle, if_pos hvalid, exec_eq_execResult]

/-- An idle block rests, its line LOW, through every run without reset and without SEND. -/
theorem run_of_idle (n : Nat) (s : State) (hi : s.OnSchedule Config.params) (hidle : s.phase = .idle)
    (hrst : ∀ q ∈ s.pins, q.rst = false) (hsend : ∀ j q, j < n → s.pins[j]? = some q → q.NoSend) :
    ∃ t : State, Host.Core.run Sys2Proof.core n s = .next t ∧ t.OnSchedule Config.params ∧ t.phase = .idle := by
  induction n generalizing s with
  | zero => exact ⟨s, rfl, hi, hidle⟩
  | succ n ih =>
    have hfirst : s.nextPins.NoSend := by
      cases hp : s.pins with
      | nil => simp [State.nextPins, hp, Pins.NoSend, Pins.quiet]
      | cons p rest =>
        have := hsend 0 p n.succ_pos (by simp [hp])
        simpa [State.nextPins, hp] using this
    obtain ⟨u, hstep, hu, huidle, hpins⟩ :=
      step_of_idle_of_noSend hi hidle (State.nextPins_rst_of_forall hrst) hfirst
    obtain ⟨t, hrun, ht⟩ := ih u hu huidle (fun q hq => hrst q (List.mem_of_mem_tail (hpins ▸ hq)))
      (fun j q hj hq => hsend (j + 1) q (by omega) (by rw [← hq, hpins, List.getElem?_tail]))
    exact ⟨t, (run_succ n hstep).trans hrun, ht⟩

/-- The cycles of a SEND, counted from the edge that accepts it: cycle `c` is the state after `c + 1` steps. -/
theorem run_send {s : State} {p : Pins} {rest : List Pins} (hidle : s.phase = .idle) (hpins : s.pins = p :: rest)
    (hrst : p.rst = false) (hvalid : p.cmdValid = true) (hsend : p.command = .send)
    (hrest : ∀ q ∈ rest, q.rst = false) {c : Nat} (hc : c ≤ 784 * Config.params.timeCycles) :
    ∃ t : State, Host.Core.run Sys2Proof.core (c + 1) s = .next t ∧ t.OnSchedule Config.params ∧
      t.buf = (execResult .send s).buf ∧ t.pins = rest.drop c ∧ elapsed Config.params t = c := by
  have hnext : s.nextPins = p := by rw [State.nextPins, hpins, List.headD_cons]
  have hdrop : (execResult .send s.dropPins).pins = rest := by
    rw [execResult_pins, State.dropPins_pins, hpins, List.tail_cons]
  have hstep : step s = .next (execResult .send s.dropPins) := by
    rw [step_of_idle s (hnext ▸ hrst) hidle, hnext, if_pos hvalid, hsend, exec_eq_execResult]
  have hzero : elapsed Config.params (execResult .send s.dropPins) = 0 := elapsed_startFrame_frame1 _ _
  obtain ⟨t, hrun, ht, hbuf, htpins, helapsed⟩ := run_of_busy c (execResult .send s.dropPins)
    (State.startFrame_onSchedule _ _ (.inl rfl)) (by rwa [hdrop]) (by omega)
  refine ⟨t, (run_succ c hstep).trans hrun, ht, ?_, by rw [htpins, hdrop], by omega⟩
  rw [hbuf]
  simp [execResult]

/-- Settles O48: the phase in cycle c is R110's for c cycles elapsed, and ready is IDLE. -/
theorem sendIsBusyForItsExactLength : Obligations.SendIsBusyForItsExactLength := by
  intro s p rest hidle hpins hrst hvalid hsend hrest c hc
  obtain ⟨t, hrun, ht, -, -, rfl⟩ := run_send hidle hpins hrst hvalid hsend hrest hc
  obtain ⟨hframe1, hgap, hframe2, hdone⟩ := phase_of_elapsed _ t ht
  refine ⟨t, hrun, ?busy, hframe1, hgap, hframe2, fun q hq hqvalid => ?accepts⟩
  case busy =>
    refine t.busy_iff.trans ?_
    rw [Ne, hdone]
    omega
  case accepts => simp [State.accepts, hq, hqvalid, State.cmdReady_iff, hdone]

/-- Settles O47: up to the SEND's end by the level at the cycle reached, then by the idle block's rest. -/
theorem cyclesRefineTheSendWaveform : Obligations.CyclesRefineTheSendWaveform := by
  refine ⟨fun s p rest hidle hpins hrst hvalid hsend hrest =>
    ⟨execResult .send s, exec_eq_execResult .send s, fun c hc => ?during, fun c hc hquiet => ?after⟩, exists_step⟩
  case during =>
    obtain ⟨t, hrun, ht, hbuf, -, rfl⟩ := run_send hidle hpins hrst hvalid hsend hrest hc
    exact ⟨t, hrun, hbuf ▸ line_eq_levelAt _ t ht⟩
  case after =>
    obtain ⟨u, hrun, hu, -, hupins, helapsed⟩ :=
      run_send hidle hpins hrst hvalid hsend hrest (c := 784 * Config.params.timeCycles) le_rfl
    obtain ⟨t, hrunRest, ht, htidle⟩ := run_of_idle (c - 784 * Config.params.timeCycles) u hu
      ((idle_iff_elapsed hu).mpr helapsed)
      (fun q hq => hrest q (List.mem_of_mem_drop (hupins ▸ hq)))
      (fun j q hj hq => hquiet _ q (Nat.le_add_right _ j) (by omega) (by rw [← hq, hupins, List.getElem?_drop]))
    refine ⟨t, ?_, htidle, (ht.idle htidle).1⟩
    have hsplit : c + 1 = 784 * Config.params.timeCycles + 1 + (c - 784 * Config.params.timeCycles) := by omega
    rw [hsplit, run_add _ _ hrun, hrunRest]

end Sys2Proof.Machine
end

section
/-! PROOF. A host that presents a command program (R57), against the transaction level (R6, R42): each command takes the
edges of `commandEdges` and leaves the state its transaction leaves. -/

namespace Sys2Proof.Machine

/-- The command on the port is the decoding of the word presented (R46). -/
theorem Pins.present_command (w : CmdWord) : (Pins.present w).command = decode w := rfl

/-- R6: a command's transaction is its effect, settled, with what it drives on the line. -/
theorem transact_eq (i : Instr) (s : State) :
    transact i s = .next ((execResult i s).settle, commandWave i (execResult i s).buf) := by
  rw [transact, exec_eq_execResult]

/-- R42: the first command's transaction, then the others'. -/
theorem transactAll_cons {i : Instr} {rest : List Instr} {s t u : State} {w : Wave} {ws : List Wave}
    (h : transact i s = .next (t, w)) (hrest : transactAll rest t = .next (u, ws)) :
    transactAll (i :: rest) s = .next (u, if w = [] then ws else w :: ws) := by
  simp only [transactAll, h, hrest]

/-- R93: a SEND is two frames and the gap. -/
theorem waveUnits_sendWave (m : Memory) : waveUnits (sendWave m) = 784 := by
  have hgap : waveUnits gapWave = 16 := rfl
  rw [sendWave_eq, waveUnits_append, waveUnits_append, waveUnits_frameWave, hgap]

/-- R95: SEND is the command that drives a waveform. -/
theorem commandWave_eq_nil_iff (i : Instr) (m : Memory) : commandWave i m = [] ↔ i ≠ .send := by
  cases i with
  | send =>
    have hne : sendWave m ≠ [] := fun h => by simpa [h] using waveUnits_sendWave m
    simp [commandWave, hne]
  | _ => simp [commandWave]

/-- A command holds the port for one edge unless it is SEND (R103, R140). -/
theorem commandEdges_of_ne_send (P : Config.Params) {i : Instr} (h : i ≠ .send) : commandEdges P i = 1 := by
  cases i with
  | send => exact absurd rfl h
  | _ => rfl

theorem commandEdges_send (P : Config.Params) : commandEdges P .send = 1 + 784 * P.timeCycles := rfl

/-- A state is its buffer, its line and position, and its samples. -/
theorem State.eq_of_samePosition {s t : State} (hbuf : t.buf = s.buf) (hpos : SamePosition s t)
    (hpins : t.pins = s.pins) : t = s := by
  obtain ⟨hline, hphase, hsym, hseg, htick⟩ := hpos
  cases s
  cases t
  simp_all

/-- An idle block on its schedule is at rest: it is settled already. -/
theorem settle_eq_of_idle {P : Config.Params} {s t : State} (hi : t.OnSchedule P) (hidle : t.phase = .idle)
    (hbuf : t.buf = s.buf) (hpins : t.pins = s.pins) : s.settle = t := by
  obtain ⟨hline, hsym, hseg, htick⟩ := hi.idle hidle
  exact State.eq_of_samePosition hbuf.symm ⟨hline.symm, hidle.symm, hsym.symm, hseg.symm, htick.symm⟩ hpins.symm

/-- A settled block is at rest, its buffer in canonical form if it was. -/
theorem State.settle_inv (P : Config.Params) {s : State} (h : s.buf.wf = true) : s.settle.Inv P :=
  ⟨h, .of_idle s.settle_phase ⟨rfl, rfl, rfl, rfl⟩⟩

/-- R46: the host never drives a reset. -/
theorem Driver.pins_rst (d : Driver) : d.pins.rst = false := by
  rw [Driver.pins]
  split <;> rfl

/-- R57: the edge that accepts the word presented runs its command and is done with the word. -/
theorem Driver.edge_of_idle (P : Config.Params) (w : CmdWord) (ws : List CmdWord) {s : State}
    (hidle : s.phase = .idle) : Driver.edge P ⟨w :: ws, s⟩ = .next ⟨ws, execResult (decode w) s⟩ := by
  have hedge : Machine.edge P (Pins.present w) s = .next (execResult (decode w) s) := by
    rw [edge_of_idle_of_valid P rfl hidle rfl, Pins.present_command, exec_eq_execResult]
  have haccepts : s.accepts (Pins.present w) = true := State.accepts_of_idle rfl hidle rfl
  simp [Driver.edge, Driver.pins, hedge, haccepts]

/-- R57: while the block is busy the host keeps presenting, and a running SEND runs on to its end. -/
theorem Driver.run_of_busy (P : Config.Params) (ws : List CmdWord) (n : Nat) (s : State) (hi : s.OnSchedule P)
    (hn : elapsed P s + n = 784 * P.timeCycles) : Driver.run P n ⟨ws, s⟩ = .next ⟨ws, s.settle⟩ := by
  induction n generalizing s with
  | zero =>
    rw [settle_eq_of_idle hi ((idle_iff_elapsed hi).mpr hn) rfl rfl]
    rfl
  | succ n ih =>
    have hbusy : s.phase ≠ .idle := fun h => by
      rw [idle_iff_elapsed hi] at h
      omega
    obtain ⟨u, hedge, hu, hbuf, hpins, helapsed⟩ := edge_of_busy P _ s hi (Driver.pins_rst ⟨ws, s⟩) hbusy
    have hrefused := State.accepts_of_not_ready (Driver.pins ⟨ws, s⟩) (State.cmdReady_of_ne_idle hbusy)
    have hdriver : Driver.edge P ⟨ws, s⟩ = .next ⟨ws, u⟩ := by simp [Driver.edge, hedge, hrefused]
    have hsettle : u.settle = s.settle :=
      State.eq_of_samePosition hbuf (SamePosition.refl s.settle) hpins
    rw [driverRun_succ n hdriver, ih u hu (by omega), hsettle]

/-- One command of the program: its word is accepted at once, and after the command's edges the block is where the
command's transaction ends. -/
theorem Driver.run_command (P : Config.Params) (w : CmdWord) (ws : List CmdWord) {s : State} (hi : s.OnSchedule P)
    (hidle : s.phase = .idle) :
    Driver.run P (commandEdges P (decode w)) ⟨w :: ws, s⟩ = .next ⟨ws, (execResult (decode w) s).settle⟩ := by
  have haccept : Driver.run P 1 ⟨w :: ws, s⟩ = .next ⟨ws, execResult (decode w) s⟩ :=
    driverRun_succ 0 (Driver.edge_of_idle P w ws hidle)
  have hnext := execResult_onSchedule (decode w) hi hidle
  by_cases hsend : decode w = .send
  · have hzero : elapsed P (execResult (decode w) s) = 0 := by
      rw [hsend]
      exact elapsed_startFrame_frame1 P _
    rw [hsend, commandEdges_send, driverRun_add 1 _ haccept, Driver.run_of_busy P ws _ _ hnext (by omega), hsend]
  · have hrest : (execResult (decode w) s).phase = .idle := (execResult_samePosition hsend s).2.1.trans hidle
    rw [commandEdges_of_ne_send P hsend, haccept, settle_eq_of_idle hnext hrest rfl rfl]

/-- Settles O49, by induction on the program: a command leaves the block at rest, ready for the next one. -/
theorem presentedCommandsComposeInOrder : Obligations.PresentedCommandsComposeInOrder := by
  intro P s ws
  induction ws generalizing s with
  | nil => exact fun _ hidle => ⟨s, [], rfl, hidle, rfl, rfl⟩
  | cons w ws ih =>
    intro hi hidle
    obtain ⟨t, waves, hall, htidle, hrun, hcount⟩ :=
      ih (execResult (decode w) s).settle (State.settle_inv P (execResult_wf _ s hi.bufWf)) (State.settle_phase _)
    refine ⟨t, _, transactAll_cons (transact_eq _ s) hall, htidle, ?run, ?waves⟩
    case run =>
      rw [List.map_cons, List.sum_cons, driverRun_add _ _ (Driver.run_command P w ws hi.onSchedule hidle), hrun]
    case waves =>
      rw [List.map_cons, List.count_cons, ← hcount]
      simp only [commandWave_eq_nil_iff]
      by_cases hsend : decode w = .send <;> simp [hsend]

end Sys2Proof.Machine
end

section
/-! PROOF. The commands taken together: their frames (R17, R33), and which of them are idempotent (R39). -/

namespace Sys2Proof.Machine

/-- Settles O15: the frame of each command, and the position of each but SEND. -/
theorem commandsWriteOnlyTheirOwnBytes : Obligations.CommandsWriteOnlyTheirOwnBytes := fun i s =>
  ⟨_, exec_eq_execResult i s, execResult_sameBufferBut i s, fun hi => execResult_samePosition hi s, execResult_pins i s⟩

/-- Settles O16: the buffer's write paths. -/
theorem bytesChangeOnlyByResetOrTheirCommand : Obligations.BytesChangeOnlyByResetOrTheirCommand := fun _ _ _ =>
  rst_or_writes_of_step

/-- States with the same bytes, the same position and the same samples are one state, since the bytes of a buffer in
canonical form determine it. -/
theorem State.eq_of_sameBuffer {s t : State} (hs : s.buf.wf = true) (ht : t.buf.wf = true) (hbuf : SameBuffer s t)
    (hpos : SamePosition s t) (hpins : t.pins = s.pins) : t = s :=
  State.eq_of_samePosition (Memory.ext_of_wf ht hs hbuf) hpos hpins

/-- R72: byte 8 is not summed. -/
theorem nsum_write_eight (m : Memory) (v : Byte) : nsum (m.write 8 v) Config.chkCount = nsum m Config.chkCount := by
  simp [nsum_chkCount, Memory.read_write]

/-- R75: byte 8 does not enter the checksum. -/
theorem chk_write_eight (m : Memory) (v : Byte) : chk (m.write 8 v) = chk m := by
  rw [chk, chk, nsum_write_eight]

/-- R39: what a command other than SEND and SETHUMIDITY writes is the same the second time: constants, the operand's
bytes, a digit ORed into itself, and a checksum that does not depend on byte 8. -/
theorem execResult_execResult_sameBuffer {i : Instr} (s : State) (hsend : i ≠ .send) (hhum : ∀ h, i ≠ .setHumidity h) :
    SameBuffer (execResult i s) (execResult i (execResult i s)) := by
  intro a
  cases i with
  | send => exact absurd rfl hsend
  | setHumidity h => exact absurd rfl (hhum h)
  | setTemp x =>
    by_cases hored : a = 4
    · rw [hored, execResult_setTemp_byte_four, execResult_setTemp_byte_four, BitVec.or_assoc, BitVec.or_self]
    · simp only [execResult, State.orByte_byte, State.setByte_byte, if_neg hored]
      split_ifs <;> rfl
  | checksum =>
    simp only [execResult, State.storeChecksum_byte, State.storeChecksum_buf, chk_write_eight]
    split_ifs <;> rfl
  | _ =>
    simp only [execResult, State.setByte_byte]
    split_ifs <;> rfl

/-- Settles O17: the second issue writes the same bytes over the first. SETHUMIDITY 1 and 2 OR their units into byte 6,
to 0x30, where 2 alone gives 0x20. -/
theorem repeatedCommandsLeaveTheSameState : Obligations.RepeatedCommandsLeaveTheSameState := by
  refine ⟨fun i s t hwf hsend hhum hexec => ?same, ?differ⟩
  case same =>
    obtain rfl := execResult_of_exec hexec
    have hwf' := execResult_wf i s hwf
    rw [exec_eq_execResult, State.eq_of_sameBuffer hwf' (execResult_wf i _ hwf')
      (execResult_execResult_sameBuffer s hsend hhum) (execResult_samePosition hsend _) (execResult_pins i _)]
  case differ =>
    have hclear : State.reset.byte 6 = 0x00 := Memory.afterReset_read_of_four_le _ (by decide)
    refine ⟨1, 2, State.reset, _, _, _, exec_eq_execResult _ _, exec_eq_execResult _ _, exec_eq_execResult _ _, ?_⟩
    rw [execResult_setHumidity_byte_six, execResult_setHumidity_byte_six, execResult_setHumidity_byte_six, hclear]
    decide

end Sys2Proof.Machine
end

section
/-! PROOF. A command word placed on the port runs as the command it decodes to (R47, R103). -/

namespace Sys2Proof.Machine

/-- R47: with a command presented and no reset, an idle block's step is the command's meaning. -/
theorem step_of_idle_of_valid {s : State} (hrst : s.nextPins.rst = false) (hidle : s.phase = .idle)
    (hvalid : s.nextPins.cmdValid = true) : step s = exec s.nextPins.command s.dropPins :=
  edge_of_idle_of_valid _ (s := s.dropPins) hrst hidle hvalid

/-- R45: the command on the port is the decoding of the word `{cmd_op, cmd_data}`. -/
theorem Pins.command_eq_decode (p : Pins) : p.command = decode (CmdWord.of p.cmdOp p.cmdData) := by
  rw [decode, op_of, data_of, Pins.command]

/-- What a table row decodes to is the decoding of its 19-bit word (log 12). -/
theorem decode_of_decodeTableWord {nbits w : Nat} {i : Instr} (h : decodeTableWord nbits w = some i) :
    decode (BitVec.ofNat 19 (w % 2 ^ nbits)) = i := by
  unfold decodeTableWord decodeNat at h
  split_ifs at h
  exact Option.some.inj h

/-- Settles O34: the port's word is presented to an idle block in both clauses, in the second by `presentNext`. -/
theorem stepRunsTheAcceptedCommand : Obligations.StepRunsTheAcceptedCommand := by
  refine ⟨fun s w hidle hrst hvalid hw => ?port, fun s nbits w i hdecode => ?table⟩
  case port =>
    rw [step_of_idle_of_valid hrst hidle hvalid, Pins.command_eq_decode, hw]
    rfl
  case table =>
    rw [step_of_idle_of_valid (s := s.withFetchWord nbits w) rfl rfl rfl]
    exact congrArg (exec · _) (decode_of_decodeTableWord hdecode)

end Sys2Proof.Machine
end

section
/-! PROOF. A reading in the documented order and out of it (R70, R132 to R135), and SETTEMP against the source's own
formulas (R67). -/

namespace Sys2Proof.Machine

-- R67, in exact rational arithmetic

/-- The source's division by ten and floor is the quotient. -/
theorem floor_div_ten (n : Nat) : ⌊(n : ℚ) / 10⌋ = ((n / 10 : Nat) : Int) := by
  rw [Int.natCast_div]
  exact Rat.floor_natCast_div_natCast n 10

/-- What a division by ten leaves beyond the quotient, times ten, is the remainder, a whole number already. -/
theorem round_div_ten_sub_quotient (n : Nat) :
    round (((n : ℚ) / 10 - (((n / 10 : Nat) : Int) : ℚ)) * 10) = ((n % 10 : Nat) : Int) := by
  have hdiv : ((n % 10 : Nat) : ℚ) + 10 * ((n / 10 : Nat) : ℚ) = n := by
    simpa only [Nat.cast_add, Nat.cast_mul, Nat.cast_ofNat] using congrArg (Nat.cast (R := ℚ)) (Nat.mod_add_div n 10)
  have hmod : ((n : ℚ) / 10 - (((n / 10 : Nat) : Int) : ℚ)) * 10 = ((n % 10 : Nat) : ℚ) := by
    rw [Int.cast_natCast]
    linarith
  rw [hmod, round_natCast]

/-- A digit in the high nibble is sixteen times the digit. -/
theorem digitHigh_eq_ofInt (d : Nat) : digitHigh d = BitVec.ofInt 8 (16 * (d : Int)) := by
  have h : (16 * (d : Int)) = ((16 * d : Nat) : Int) := by push_cast; rfl
  rw [digitHigh, u8, Nat.shiftLeft_eq, Nat.mul_comm, h, BitVec.ofInt_natCast]

/-- Byte 5 as the source writes it: sixteen times the tens, and the units. -/
theorem tempDigitsByte_eq_ofInt (x : Operand) :
    tempDigitsByte x = BitVec.ofInt 8 (16 * (tempTens x : Int) + (tempUnits x : Int)) := by
  have h : 16 * (tempTens x : Int) + (tempUnits x : Int) = ((16 * tempTens x + tempUnits x : Nat) : Int) := by
    push_cast; rfl
  apply BitVec.eq_of_toNat_eq
  rw [tempDigitsByte_toNat, h, BitVec.ofInt_natCast, BitVec.toNat_ofNat]

/-- Settles O11: each formula is a quotient or a remainder by ten, and the rounding has nothing to round. -/
theorem setTempAgreesWithTheSourceFormulas : Obligations.SetTempAgreesWithTheSourceFormulas := by
  rintro d s _ intPart td tf tempFloat - rfl hint htd htf hfloat
  have hI : intPart = (tempInt d : Int) := hint.trans (floor_div_ten _)
  have htens : td = (tempTens d : Int) := by
    rw [htd, hI, Int.cast_natCast]
    exact floor_div_ten _
  have hunits : tf = (tempUnits d : Int) := by
    rw [htf, hI, htens, Int.cast_natCast (tempInt d)]
    exact round_div_ten_sub_quotient _
  have htenths : tempFloat = (tempTenths d : Int) := by
    rw [hfloat, hI]
    exact round_div_ten_sub_quotient _
  rw [hunits, htens, htenths, ← tempDigitsByte_eq_ofInt, ← digitHigh_eq_ofInt]
  exact ⟨_, exec_eq_execResult _ s, execResult_setTemp_byte_five d s, execResult_setTemp_byte_four d s⟩

end Sys2Proof.Machine
end

section
/-! PROOF. A reading in the documented order (R70) and out of it (R132 to R135), nibble by nibble. -/

namespace Sys2Proof.Machine

section
variable (l h : Byte) (x : Operand) (s : State)

/-- R62: byte 4 is replaced by the battery code. -/
theorem execResult_setBattery_byte_four : (execResult (.setBattery l) s).byte 4 = batteryCode l :=
  s.setByte_byte_self 4 _

/-- R17: SETTEMP keeps byte 7. -/
theorem execResult_setTemp_byte_seven : (execResult (.setTemp x) s).byte 7 = s.byte 7 :=
  execResult_sameBufferBut (.setTemp x) s 7 (by simp [Instr.writes])

/-- R17: SETHUMIDITY keeps byte 4. -/
theorem execResult_setHumidity_byte_four : (execResult (.setHumidity h) s).byte 4 = s.byte 4 :=
  execResult_sameBufferBut (.setHumidity h) s 4 (by simp [Instr.writes])

/-- R17: SETHUMIDITY keeps byte 5. -/
theorem execResult_setHumidity_byte_five : (execResult (.setHumidity h) s).byte 5 = s.byte 5 :=
  execResult_sameBufferBut (.setHumidity h) s 5 (by simp [Instr.writes])

/-- R62: the battery code has a clear high nibble. -/
theorem highNibble_batteryCode : highNibble (batteryCode l) = 0 := by
  unfold batteryCode
  split <;> rfl

/-- R62: the battery code's low nibble marks level 0. -/
theorem lowNibble_batteryCode : lowNibble (batteryCode l) = if l = 0 then 0xC else 0x0 := by
  unfold batteryCode
  split <;> rfl

/-- R63: the sign code has a clear high nibble. -/
theorem highNibble_signCode : highNibble (signCode x) = 0 := by
  unfold signCode
  split <;> rfl

/-- R63: the sign code's low nibble is the sign bit alone. -/
theorem lowNibble_signCode : lowNibble (signCode x) = if x.toInt < 0 then 0x8 else 0x0 := by
  unfold signCode tempValue
  split <;> rfl

/-- Bit 3 of a byte is bit 3 of its low nibble. -/
theorem getLsbD_three_eq (b : Byte) : b.getLsbD 3 = (lowNibble b).getLsbD 3 := by
  simp [lowNibble]

/-- Bits 2:0 of a byte are those of its low nibble. -/
theorem extractLsb'_three_eq (b : Byte) : b.extractLsb' 0 3 = (lowNibble b).extractLsb' 0 3 := by
  rw [lowNibble, BitVec.extractLsb'_extractLsb'_of_le (by decide)]

-- The nibbles that the three commands leave

theorem highNibble_execResult_setBattery_byte_four : highNibble ((execResult (.setBattery l) s).byte 4) = 0 := by
  rw [execResult_setBattery_byte_four, highNibble_batteryCode]

/-- R65, R133: the tenths digit is ORed into what the nibble held. -/
theorem highNibble_execResult_setTemp_byte_four :
    highNibble ((execResult (.setTemp x) s).byte 4) = highNibble (s.byte 4) ||| BitVec.ofNat 4 (tempTenths x) := by
  rw [execResult_setTemp_byte_four, highNibble_or_digitHigh]

theorem highNibble_execResult_setTemp_byte_six : highNibble ((execResult (.setTemp x) s).byte 6) = 0 := by
  rw [execResult_setTemp_byte_six, highNibble_signCode]

/-- R68, R135: the units digit is ORed into what the nibble held. -/
theorem highNibble_execResult_setHumidity_byte_six :
    highNibble ((execResult (.setHumidity h) s).byte 6) = highNibble (s.byte 6) ||| BitVec.ofNat 4 (humUnits h) := by
  rw [execResult_setHumidity_byte_six, highNibble_or_digitHigh]

theorem toNat_execResult_setHumidity_byte_seven :
    ((execResult (.setHumidity h) s).byte 7).toNat = humTens h := by
  rw [execResult_setHumidity_byte_seven, toNat_u8_humTens]

end

/-- A digit survives a nibble. -/
theorem toNat_digitNibble {d : Nat} (h : d < 10) : (BitVec.ofNat 4 d).toNat = d :=
  (BitVec.toNat_ofNat d 4).trans (Nat.mod_eq_of_lt (by omega))

theorem tempTenths_lt (x : Operand) : tempTenths x < 10 := Nat.mod_lt _ (by decide)

theorem humUnits_lt (h : Byte) : humUnits h < 10 := Nat.mod_lt _ (by decide)

/-- R63: bit 3 of the sign code is set exactly for a negative temperature. -/
theorem getLsbD_three_signCode (x : Operand) : (signCode x).getLsbD 3 = decide (x.toInt < 0) := by
  rw [getLsbD_three_eq, lowNibble_signCode]
  by_cases hneg : x.toInt < 0 <;> simp [hneg]

-- The decoders and the flags, by the bytes they read (R25, R70)

section
variable (s : State)

theorem signFlag_eq : signFlag s.buf = (s.byte 6).getLsbD 3 := rfl
theorem battLowField_eq : battLowField s.buf = (s.byte 4).extractLsb' 2 2 := rfl
theorem decHum_eq : decHum s.buf = 10 * (s.byte 7).toNat + (highNibble (s.byte 6)).toNat := rfl
theorem decBattLow_eq : decBattLow s.buf = decide (lowNibble (s.byte 4) = 0xC) := rfl

end

section
variable {m : Memory} {x : Operand}

/-- R70: the decoder's temperature, from the tens and units of byte 5, the tenths in byte 4 and the sign in byte 6, when
the magnitude has three digits. -/
theorem decTemp_eq_toInt (hsign : signFlag m = decide (x.toInt < 0)) (hdigits : m.read 5 = tempDigitsByte x)
    (htenths : highNibble (m.read 4) = BitVec.ofNat 4 (tempTenths x)) (hmag : x.toInt.natAbs ≤ 999) :
    decTemp m = x.toInt := by
  have htens : tempTens x % 16 = x.toInt.natAbs / 100 := by
    unfold tempTens tempInt tempMagnitude tempValue
    omega
  have hunits : tempUnits x = x.toInt.natAbs / 10 % 10 := rfl
  have htt : tempTenths x = x.toInt.natAbs % 10 := rfl
  have hsum : 100 * (x.toInt.natAbs / 100) + 10 * (x.toInt.natAbs / 10 % 10) + x.toInt.natAbs % 10 =
      x.toInt.natAbs := by omega
  rw [decTemp, hsign, hdigits, htenths, highNibble_tempDigitsByte, lowNibble_tempDigitsByte,
    toNat_digitNibble (tempTenths_lt x), htens, hunits, htt, hsum]
  simp only [decide_eq_true_eq]
  split <;> omega

end

/-- The state a reading leaves when its commands come in the documented order (R56). -/
def readingResult (l : Byte) (x : Operand) (h : Byte) (s : State) : State :=
  execResult (.setHumidity h) (execResult (.setTemp x) (execResult (.setBattery l) s))

section
variable (l : Byte) (x : Operand) (h : Byte) (s : State)

theorem readingResult_byte_five : (readingResult l x h s).byte 5 = tempDigitsByte x := by
  rw [readingResult, execResult_setHumidity_byte_five, execResult_setTemp_byte_five]

/-- R70: in the documented order the nibble that the tenths digit is ORed into is clear. -/
theorem highNibble_readingResult_byte_four :
    highNibble ((readingResult l x h s).byte 4) = BitVec.ofNat 4 (tempTenths x) := by
  rw [readingResult, execResult_setHumidity_byte_four, highNibble_execResult_setTemp_byte_four,
    highNibble_execResult_setBattery_byte_four]
  exact BitVec.zero_or

/-- R70: and so is the nibble that the units digit is ORed into. -/
theorem highNibble_readingResult_byte_six :
    highNibble ((readingResult l x h s).byte 6) = BitVec.ofNat 4 (humUnits h) := by
  rw [readingResult, highNibble_execResult_setHumidity_byte_six, highNibble_execResult_setTemp_byte_six]
  exact BitVec.zero_or

theorem lowNibble_readingResult_byte_four :
    lowNibble ((readingResult l x h s).byte 4) = if l = 0 then 0xC else 0x0 := by
  rw [readingResult, execResult_setHumidity_byte_four, execResult_setTemp_byte_four, lowNibble_or_digitHigh,
    execResult_setBattery_byte_four, lowNibble_batteryCode]

theorem lowNibble_readingResult_byte_six :
    lowNibble ((readingResult l x h s).byte 6) = if x.toInt < 0 then 0x8 else 0x0 := by
  rw [readingResult, execResult_setHumidity_byte_six, lowNibble_or_digitHigh, execResult_setTemp_byte_six,
    lowNibble_signCode]

theorem signFlag_readingResult : signFlag (readingResult l x h s).buf = decide (x.toInt < 0) := by
  rw [signFlag_eq, getLsbD_three_eq, lowNibble_readingResult_byte_six]
  by_cases hneg : x.toInt < 0 <;> simp [hneg]

theorem decTemp_readingResult (hlow : -999 ≤ x.toInt) (hhigh : x.toInt ≤ 999) :
    decTemp (readingResult l x h s).buf = x.toInt :=
  decTemp_eq_toInt (signFlag_readingResult l x h s) (readingResult_byte_five l x h s)
    (highNibble_readingResult_byte_four l x h s) (by omega)

theorem decHum_readingResult : decHum (readingResult l x h s).buf = h.toNat := by
  rw [decHum_eq, highNibble_readingResult_byte_six, toNat_digitNibble (humUnits_lt h), readingResult,
    toNat_execResult_setHumidity_byte_seven]
  exact Nat.div_add_mod h.toNat 10

theorem decBattLow_readingResult : decBattLow (readingResult l x h s).buf = true ↔ l = 0 := by
  rw [decBattLow_eq, decide_eq_true_iff, lowNibble_readingResult_byte_four]
  by_cases hl : l = 0 <;> simp [hl]

end

/-- Settles O18: the reading's bytes from any state, and what the decoders make of their nibbles. -/
theorem readingDecodesToItsOperands : Obligations.ReadingDecodesToItsOperands := by
  intro s l x h
  refine ⟨_, _, readingResult l x h s, exec_eq_execResult _ _, exec_eq_execResult _ _, exec_eq_execResult _ _,
    decTemp_readingResult l x h s, ?sign, fun _ => decHum_readingResult l x h s, decBattLow_readingResult l x h s,
    ?battery, ?low⟩
  case sign =>
    rw [← decide_eq_true_iff (p := x.toInt < 0), ← signFlag_readingResult l x h s]
    rfl
  case battery =>
    rw [lowNibble_readingResult_byte_four]
    exact (ite_eq_or_eq _ _ _).symm
  case low =>
    rw [extractLsb'_three_eq, lowNibble_readingResult_byte_six]
    split <;> rfl

-- Out of order (R132 to R135)

/-- Settles O19: SETBATTERY clears the nibble that SETTEMP ORs the tenths digit into. -/
theorem batteryOrderHazards : Obligations.BatteryOrderHazards := by
  refine ⟨fun s l x => ⟨_, _, exec_eq_execResult _ _, exec_eq_execResult _ _,
      highNibble_execResult_setBattery_byte_four l _⟩,
    fun s x => ⟨_, exec_eq_execResult _ _, highNibble_execResult_setTemp_byte_four x s⟩,
    fun s => ⟨_, _, _, exec_eq_execResult _ _, exec_eq_execResult _ _, exec_eq_execResult _ _, ?shown⟩⟩
  case shown =>
    rw [execResult_setTemp_byte_four, execResult_setTemp_byte_four, execResult_setBattery_byte_four]
    decide

/-- R134: SETTEMP after SETHUMIDITY leaves the humidity's tens alone. -/
theorem decHum_setHumidity_setTemp (h : Byte) (x : Operand) (s : State) :
    decHum (execResult (.setTemp x) (execResult (.setHumidity h) s)).buf = 10 * humTens h := by
  rw [decHum_eq, highNibble_execResult_setTemp_byte_six, execResult_setTemp_byte_seven,
    toNat_execResult_setHumidity_byte_seven]
  rfl

/-- R135: after a SETTEMP, two SETHUMIDITY leave the OR of their units digits. -/
theorem highNibble_setTemp_setHumidity_setHumidity (x : Operand) (g h : Byte) (s : State) :
    highNibble ((execResult (.setHumidity h) (execResult (.setHumidity g) (execResult (.setTemp x) s))).byte 6) =
      BitVec.ofNat 4 (humUnits g) ||| BitVec.ofNat 4 (humUnits h) := by
  rw [highNibble_execResult_setHumidity_byte_six, highNibble_execResult_setHumidity_byte_six,
    highNibble_execResult_setTemp_byte_six]
  exact congrArg (· ||| _) BitVec.zero_or

/-- Settles O20: SETTEMP clears the nibble that SETHUMIDITY ORs the units digit into, and keeps byte 7. -/
theorem humidityOrderHazards : Obligations.HumidityOrderHazards := by
  refine ⟨fun s h x => ⟨_, _, exec_eq_execResult _ _, exec_eq_execResult _ _,
      highNibble_execResult_setTemp_byte_six x _, ?kept, decHum_setHumidity_setTemp h x s⟩,
    fun s x g h => ⟨_, _, _, exec_eq_execResult _ _, exec_eq_execResult _ _, exec_eq_execResult _ _,
      highNibble_setTemp_setHumidity_setHumidity x g h s, toNat_execResult_setHumidity_byte_seven h _⟩,
    fun s x => ⟨_, _, _, exec_eq_execResult _ _, exec_eq_execResult _ _, exec_eq_execResult _ _, ?shown⟩⟩
  case kept =>
    rw [execResult_setTemp_byte_seven]
    exact toNat_execResult_setHumidity_byte_seven h s
  case shown =>
    rw [decHum_eq, highNibble_setTemp_setHumidity_setHumidity, toNat_execResult_setHumidity_byte_seven]
    decide

/-- Settles O21: the fields are bits of the codes that SETBATTERY and SETTEMP write. -/
theorem messageFlagsRecordTheirOperand : Obligations.MessageFlagsRecordTheirOperand := by
  intro s l x
  refine ⟨_, _, exec_eq_execResult _ _, ?battery, exec_eq_execResult _ _, ?sign⟩
  case battery =>
    rw [battLowField_eq, execResult_setBattery_byte_four, batteryCode]
    split <;> rfl
  case sign =>
    rw [signFlag_eq, execResult_setTemp_byte_six, getLsbD_three_signCode]

end Sys2Proof.Machine
end

section
/-! PROOF. What the checksum sees (R75, R77): how one write moves the nibble sum, and the checksum determined by the
sum. -/

namespace Sys2Proof.Machine

/-- R72: writing one of the bytes summed exchanges its nibbles for the new ones. -/
theorem nsum_write (m : Memory) {a : Addr} (ha : a ≠ 8) (v : Byte) :
    nsum (m.write a v) Config.chkCount + nibbleSum (m.read a) = nsum m Config.chkCount + nibbleSum v := by
  have hcases : ∀ a : Addr, a ≠ 8 → a = 0 ∨ a = 1 ∨ a = 2 ∨ a = 3 ∨ a = 4 ∨ a = 5 ∨ a = 6 ∨ a = 7 := by decide
  rw [nsum_chkCount, nsum_chkCount]
  rcases hcases a ha with rfl | rfl | rfl | rfl | rfl | rfl | rfl | rfl <;>
    simp [Memory.read_write] <;> omega

/-- R73: the checksum loses nothing of the sum, which is less than 256. -/
theorem chk_eq_chk_iff (m n : Memory) :
    chk m = chk n ↔ nsum m Config.chkCount = nsum n Config.chkCount := by
  refine ⟨fun h => ?_, fun h => by rw [chk, chk, h]⟩
  have hm := nsum_chkCount_le m
  have hn := nsum_chkCount_le n
  have h := congrArg BitVec.toNat h
  rw [chk_toNat, chk_toNat] at h
  split_ifs at h <;> omega

theorem highNibble_xor (a b : Byte) : highNibble (a ^^^ b) = highNibble a ^^^ highNibble b := by
  simp [highNibble, BitVec.extractLsb'_xor]

theorem lowNibble_xor (a b : Byte) : lowNibble (a ^^^ b) = lowNibble a ^^^ lowNibble b := by
  simp [lowNibble, BitVec.extractLsb'_xor]

/-- A bit flipped in a nibble moves its value by the bit's weight. -/
theorem natAbs_flip_nibble : ∀ (n : BitVec 4) (j : Fin 4),
    (((n ^^^ BitVec.ofNat 4 (2 ^ j.val)).toNat : Int) - n.toNat).natAbs = 2 ^ j.val := by decide

/-- One bit of a byte stands in one of its nibbles, the other nibble clear. -/
theorem nibbles_of_bit : ∀ j : Fin 4,
    (lowNibble (BitVec.ofNat 8 (2 ^ j.val)) = BitVec.ofNat 4 (2 ^ j.val) ∧
      highNibble (BitVec.ofNat 8 (2 ^ j.val)) = 0#4) ∧
    lowNibble (BitVec.ofNat 8 (2 ^ (j.val + 4))) = 0#4 ∧
      highNibble (BitVec.ofNat 8 (2 ^ (j.val + 4))) = BitVec.ofNat 4 (2 ^ j.val) := by decide

/-- R77: a bit flipped in a byte moves its nibble sum by the bit's weight in its nibble. -/
theorem natAbs_nibbleSum_flip (b : Byte) {k : Nat} (hk : k < 8) :
    ∃ j : Fin 4, ((nibbleSum (b ^^^ BitVec.ofNat 8 (2 ^ k)) : Int) - nibbleSum b).natAbs = 2 ^ j.val := by
  simp only [nibbleSum, highNibble_xor, lowNibble_xor]
  by_cases hlow : k < 4
  · obtain ⟨⟨hbit, hclear⟩, -⟩ := nibbles_of_bit ⟨k, hlow⟩
    have hflip := natAbs_flip_nibble (lowNibble b) ⟨k, hlow⟩
    refine ⟨⟨k, hlow⟩, Eq.trans (congrArg Int.natAbs ?_) hflip⟩
    rw [hbit, hclear, BitVec.xor_zero]
    omega
  · obtain ⟨j, rfl⟩ := Nat.exists_eq_add_of_le' (Nat.le_of_not_lt hlow)
    obtain ⟨-, hclear, hbit⟩ := nibbles_of_bit ⟨j, by omega⟩
    have hflip := natAbs_flip_nibble (highNibble b) ⟨j, by omega⟩
    refine ⟨⟨j, by omega⟩, Eq.trans (congrArg Int.natAbs ?_) hflip⟩
    rw [hbit, hclear, BitVec.xor_zero]
    omega

/-- R77: a bit flipped in one of the bytes summed moves the sum by 1, 2, 4 or 8. -/
theorem natAbs_nsum_flip (m : Memory) {a : Addr} (ha : a ≠ 8) {k : Nat} (hk : k < 8) :
    ((nsum (m.write a (m.read a ^^^ BitVec.ofNat 8 (2 ^ k))) Config.chkCount : Int) -
      nsum m Config.chkCount).natAbs ∈ [1, 2, 4, 8] := by
  have hweights : ∀ j : Fin 4, 2 ^ j.val ∈ [1, 2, 4, 8] := by decide
  obtain ⟨j, hj⟩ := natAbs_nibbleSum_flip (m.read a) hk
  have hwrite := nsum_write m ha (m.read a ^^^ BitVec.ofNat 8 (2 ^ k))
  convert hweights j using 1
  rw [← hj]
  omega

/-- Exchanging a byte's nibbles keeps their sum. -/
theorem nibbleSum_exchange (b : Byte) : nibbleSum (lowNibble b ++ highNibble b) = nibbleSum b := by
  have hhigh : highNibble (lowNibble b ++ highNibble b) = lowNibble b := BitVec.extractLsb'_append_eq_left
  have hlow : lowNibble (lowNibble b ++ highNibble b) = highNibble b := BitVec.extractLsb'_append_eq_right
  rw [nibbleSum, nibbleSum, hhigh, hlow, Nat.add_comm]

/-- R77: exchanging two of the bytes summed keeps the sum. -/
theorem nsum_exchange (m : Memory) {a b : Addr} (ha : a ≠ 8) (hb : b ≠ 8) :
    nsum ((m.write a (m.read b)).write b (m.read a)) Config.chkCount = nsum m Config.chkCount := by
  have hread : (m.write a (m.read b)).read b = m.read b := by
    rw [Memory.read_write]
    exact ite_self _
  have hfirst := nsum_write m ha (m.read b)
  have hsecond := nsum_write (m.write a (m.read b)) hb (m.read a)
  rw [hread] at hsecond
  omega

/-- Settles O22: the checksum changes exactly when the nibble sum does. The two-bit change moves a 1 from byte 0 to
byte 1. -/
theorem checksumSeesEverySingleBitChange : Obligations.ChecksumSeesEverySingleBitChange := by
  refine ⟨?oneBit, ⟨[(0, 1)], 0, 1, 0, 0, by decide⟩, fun m a ha => ?nibbles, fun m a b ha hb => ?bytes⟩
  case oneBit =>
    rintro m a k ha hk _ rfl
    have hsum := natAbs_nsum_flip m ha hk
    refine ⟨hsum, fun hchk => ?_⟩
    rw [(chk_eq_chk_iff _ _).mp hchk, Int.sub_self] at hsum
    exact absurd hsum (by decide)
  case nibbles =>
    have hwrite := nsum_write m ha (lowNibble (m.read a) ++ highNibble (m.read a))
    rw [nibbleSum_exchange] at hwrite
    exact (chk_eq_chk_iff _ _).mpr (Nat.add_right_cancel hwrite)
  case bytes => exact (chk_eq_chk_iff _ _).mpr (nsum_exchange m ha hb)

/-- Settles O23: SEND's checksum is that of bytes 0 to 7 alone, and symbols 80 to 87 are byte 8. -/
theorem sendTransmitsTheFreshChecksum : Obligations.SendTransmitsTheFreshChecksum := by
  intro s v
  have hbuf : (execResult .send (s.setByte 8 v)).buf = (s.buf.write 8 v).write 8 (chk (s.buf.write 8 v)) := by
    simp [execResult]
  have height : (execResult .send (s.setByte 8 v)).byte 8 = chk s.buf := by
    rw [execResult_send_byte_eight, State.setByte_buf, chk_write_eight]
  refine ⟨_, exec_eq_execResult _ _, fun k hk => ?bits, ?stored⟩
  case bits =>
    rw [← height]
    exact frameBit_message _ 8 hk
  case stored => rw [height, hbuf, chk_write_eight, chk_write_eight]

end Sys2Proof.Machine
end

section
/-! PROOF. The waveform of a frame and of a SEND (R84 to R93): lengths, levels unit by unit, and the timing table
(R141). -/

namespace Sys2Proof.Machine

/-- R84: every symbol is three segments. -/
theorem length_symbols (f : Nat → Bool) (ks : List Nat) :
    (ks.flatMap (fun k => symWave (f k))).length = 3 * ks.length := by
  induction ks with
  | nil => rfl
  | cons k ks ih =>
    rw [List.flatMap_cons, List.length_append, ih, List.length_cons, Nat.mul_succ, Nat.add_comm]
    rfl

/-- R86: a frame is 96 symbols of three segments. -/
theorem length_frameWave (m : Memory) : (frameWave m).length = 288 :=
  (length_symbols _ _).trans (congrArg (3 * ·) List.length_range)

/-- R85, R86: a frame's level in unit `j` of symbol `k` is the bit in the middle units, its inverse in the outer two. -/
theorem levelAt_frameWave_unit (m : Memory) {k j : Nat} (hk : k < 96) (hj : j < 4) :
    levelAt (frameWave m) (4 * k + j) = if j = 1 ∨ j = 2 then frameBit m k else !frameBit m k :=
  (levelAt_frameWave m k j hk hj).trans (levelAt_symWave _ j hj)

/-- Settles O26: the frame is the symbols of its bits by definition. -/
theorem frameLevelsFollowItsBits : Obligations.FrameLevelsFollowItsBits := fun m =>
  ⟨List.flatMap_def, length_frameWave m, waveUnits_frameWave m, fun _ _ => levelAt_frameWave_unit m⟩

/-- A count over groups of four, two to each group. -/
theorem countP_range_four_mul (p : Nat → Bool) (n : Nat)
    (h : ∀ k < n, (List.range 4).countP (fun j => p (4 * k + j)) = 2) : (List.range (4 * n)).countP p = 2 * n := by
  induction n with
  | zero => rfl
  | succ n ih =>
    rw [Nat.mul_succ, List.range_add, List.countP_append, ih fun k hk => h k (by omega), List.countP_map]
    exact congrArg (2 * n + ·) (h n n.lt_succ_self)

/-- R85: of a symbol's four units two have each level. -/
theorem countP_symbol (m : Memory) {k : Nat} (hk : k < 96) (b : Bool) :
    (List.range 4).countP (fun j => levelAt (frameWave m) (4 * k + j) == b) = 2 := by
  have hlevels : ∀ bit b : Bool, (List.range 4).countP (fun j => (if j = 1 ∨ j = 2 then bit else !bit) == b) = 2 := by
    decide
  rw [← hlevels (frameBit m k) b]
  refine List.countP_congr fun j hj => ?_
  rw [levelAt_frameWave_unit m hk (List.mem_range.mp hj)]

/-- Settles O27: half of every symbol's units are HIGH, whatever its bit. -/
theorem everyFrameIsHalfHigh : Obligations.EveryFrameIsHalfHigh := by
  have half (m : Memory) (b : Bool) : (List.range 384).countP (fun u => levelAt (frameWave m) u == b) = 192 :=
    countP_range_four_mul _ 96 fun _ hk => countP_symbol m hk b
  intro m
  have hhigh := half m true
  have hlow := half m false
  simp only [beq_true, beq_false] at hhigh hlow
  exact ⟨hhigh, hlow⟩

-- The level over a SEND, frame, gap and frame (R92)

section
variable (m : Memory) {u : Nat}

theorem levelAt_sendWave_first (hu : u < 384) : levelAt (sendWave m) u = levelAt (frameWave m) u := by
  rw [levelAt_sendWave, if_pos hu]

theorem levelAt_sendWave_gap (hlow : 384 ≤ u) (hhigh : u < 400) : levelAt (sendWave m) u = false := by
  rw [levelAt_sendWave, if_neg (by omega), if_pos hhigh]

theorem levelAt_sendWave_second (hlow : 400 ≤ u) : levelAt (sendWave m) u = levelAt (frameWave m) (u - 400) := by
  rw [levelAt_sendWave, if_neg (by omega), if_neg (by omega)]

/-- R80: a frame starts with a one bit, whose first unit is LOW. -/
theorem levelAt_frameWave_zero : levelAt (frameWave m) 0 = false := by
  rw [levelAt_frameWave_unit m (k := 0) (j := 0) (by decide) (by decide), frameBit_preamble m (by decide)]
  rfl

/-- R80: that bit's second unit is HIGH. -/
theorem levelAt_frameWave_one : levelAt (frameWave m) 1 = true := by
  rw [levelAt_frameWave_unit m (k := 0) (j := 1) (by decide) (by decide), frameBit_preamble m (by decide)]
  rfl

/-- R81: a frame ends with a zero bit, whose last unit is HIGH. -/
theorem levelAt_frameWave_last : levelAt (frameWave m) 383 = true := by
  rw [levelAt_frameWave_unit m (k := 95) (j := 3) (by decide) (by decide), frameBit_postamble m (by decide) (by decide)]
  rfl

/-- R92: LOW from the first frame's end through the second one's first unit. -/
theorem levelAt_sendWave_join (hlow : 384 ≤ u) (hhigh : u < 401) : levelAt (sendWave m) u = false := by
  obtain hgap | rfl : u < 400 ∨ u = 400 := by omega
  · exact levelAt_sendWave_gap m hlow hgap
  · exact (levelAt_sendWave_second m le_rfl).trans (levelAt_frameWave_zero m)

end

/-- Settles O28: each frame begins with a preamble one and ends with a postamble zero, and the gap between is LOW. -/
theorem sendIsTwoFramesAndAGap : Obligations.SendIsTwoFramesAndAGap := by
  refine ⟨fun m => ?_, fun P s hi hidle => (hi.onSchedule.idle hidle).1⟩
  exact ⟨fun _ => levelAt_sendWave_first m, fun _ => levelAt_sendWave_gap m,
    fun _ hlow _ => levelAt_sendWave_second m hlow,
    fun u hu => levelAt_of_ended _ u ((waveUnits_sendWave m).trans_le hu),
    (levelAt_sendWave_first m (by decide)).trans (levelAt_frameWave_zero m),
    (levelAt_sendWave_first m (by decide)).trans (levelAt_frameWave_one m),
    (levelAt_sendWave_first m (by decide)).trans (levelAt_frameWave_last m),
    (levelAt_sendWave_second m (by decide)).trans (levelAt_frameWave_last m),
    fun _ => levelAt_sendWave_join m,
    (levelAt_sendWave_second m (by decide)).trans (levelAt_frameWave_one m)⟩

/-- Settles O29: each row is its length in TIME units, times 512 and times TIME_CYCLES. -/
theorem timingTableRows : Obligations.TimingTableRows := by
  intro P m b
  rw [waveUnits_frameWave, waveUnits_sendWave]
  exact ⟨Nat.one_mul _, rfl, Nat.one_mul _, rfl, ⟨rfl, rfl, rfl⟩, ⟨rfl, rfl, rfl⟩, ⟨rfl, rfl, rfl⟩, ⟨rfl, rfl, rfl⟩,
    ⟨rfl, rfl, rfl⟩, ⟨rfl, rfl, rfl⟩, ⟨rfl, rfl, rfl⟩, ⟨rfl, rfl, rfl⟩⟩

end Sys2Proof.Machine
end

section
/-! PROOF. The run-length form of a waveform (R88): it has the waveform's level at every time, and its levels
alternate. -/

namespace Sys2Proof.Machine

/-- What joining does to a waveform's first segment: it stands alone, it is joined to the run that follows, or it starts
a run before one of the other level. -/
theorem mergeRuns_cons_cases (g : Segment) (w : Wave) :
    (mergeRuns w = [] ∧ mergeRuns (g :: w) = [g]) ∨
    ∃ h rest, mergeRuns w = h :: rest ∧
      ((g.level = h.level ∧ mergeRuns (g :: w) = ⟨g.level, g.units + h.units⟩ :: rest) ∨
        (g.level ≠ h.level ∧ mergeRuns (g :: w) = g :: h :: rest)) := by
  rw [mergeRuns]
  cases mergeRuns w with
  | nil => exact .inl ⟨rfl, rfl⟩
  | cons h rest =>
    refine .inr ⟨h, rest, rfl, ?_⟩
    by_cases hlevel : g.level = h.level <;> simp [hlevel]

/-- A run joined from two pieces of one level has the level of the two pieces. -/
theorem levelAt_joined {g h : Segment} (hlevel : g.level = h.level) (w : Wave) (u : Nat) :
    levelAt (⟨g.level, g.units + h.units⟩ :: w) u = levelAt (g :: h :: w) u := by
  simp only [levelAt, ← hlevel, Nat.sub_add_eq]
  by_cases hfirst : u < g.units
  · rw [if_pos hfirst, if_pos (by omega)]
  · have hsecond : u - g.units < h.units ↔ u < g.units + h.units := by omega
    simp only [hfirst, hsecond, if_false]

/-- Waveforms that go on alike after the same segment have the same level at every time. -/
theorem levelAt_cons_congr {v w : Wave} (g : Segment) (h : ∀ u, levelAt v u = levelAt w u) (u : Nat) :
    levelAt (g :: v) u = levelAt (g :: w) u := by
  simp only [levelAt, h]

/-- R88: joining keeps the level at every time. -/
theorem levelAt_mergeRuns (w : Wave) (u : Nat) : levelAt (mergeRuns w) u = levelAt w u := by
  induction w generalizing u with
  | nil => rfl
  | cons g w ih =>
    rw [← levelAt_cons_congr g ih]
    obtain ⟨hnil, h⟩ | ⟨h, rest, hmerged, ⟨hlevel, hjoin⟩ | ⟨-, hstart⟩⟩ := mergeRuns_cons_cases g w
    · rw [h, hnil]
    · rw [hjoin, hmerged, levelAt_joined hlevel]
    · rw [hstart, hmerged]

/-- R88: joining keeps the length. -/
theorem waveUnits_mergeRuns (w : Wave) : waveUnits (mergeRuns w) = waveUnits w := by
  induction w with
  | nil => rfl
  | cons g w ih =>
    rw [waveUnits_cons, ← ih]
    obtain ⟨hnil, h⟩ | ⟨h, rest, hmerged, ⟨-, hjoin⟩ | ⟨-, hstart⟩⟩ := mergeRuns_cons_cases g w
    · rw [h, hnil, waveUnits_cons]
    · rw [hjoin, hmerged, waveUnits_cons, waveUnits_cons, Nat.add_assoc]
    · rw [hstart, hmerged, waveUnits_cons]

/-- R88: neighbours in the run-length form differ in level. -/
theorem isChain_mergeRuns (w : Wave) : (mergeRuns w).IsChain (fun g h => g.level ≠ h.level) := by
  induction w with
  | nil => exact List.isChain_nil
  | cons g w ih =>
    obtain ⟨-, h⟩ | ⟨h, rest, hmerged, ⟨hlevel, hjoin⟩ | ⟨hne, hstart⟩⟩ := mergeRuns_cons_cases g w
    · rw [h]
      exact List.isChain_singleton g
    · rw [hmerged] at ih
      rw [hjoin]
      cases rest with
      | nil => exact List.isChain_singleton _
      | cons k rest =>
        rw [List.isChain_cons_cons] at ih ⊢
        exact ⟨hlevel ▸ ih.1, ih.2⟩
    · rw [hmerged] at ih
      rw [hstart]
      exact List.isChain_cons_cons.mpr ⟨hne, ih⟩

/-- Settles O30: by induction on the waveform, each segment joined or not as its level says. -/
theorem joiningEqualNeighboursKeepsTheLevel : Obligations.JoiningEqualNeighboursKeepsTheLevel := by
  refine fun w => ⟨levelAt_mergeRuns w, waveUnits_mergeRuns w, fun n g h hg hh => ?_⟩
  obtain ⟨hn, rfl⟩ := List.getElem?_eq_some_iff.mp hg
  obtain ⟨hn', rfl⟩ := List.getElem?_eq_some_iff.mp hh
  exact (isChain_mergeRuns w).getElem n hn'

end Sys2Proof.Machine
end

section
/-! PROOF. The sequencer outside IDLE and on its way there and back (R44, R95, R96, R108). -/

namespace Sys2Proof.Machine

section
variable {P : Config.Params} {s : State}

/-- R108, before the gap's end. -/
theorem State.gapEdge_of_tick_lt (ht : s.tick + 1 < gapCycles P) : s.gapEdge P = s.tickOn := if_pos ht

/-- R108, at the gap's end. -/
theorem State.gapEdge_of_last (ht : s.tick + 1 = gapCycles P) : s.gapEdge P = s.startFrame .frame2 := by
  rw [State.gapEdge, if_neg ht.not_lt]

end

/-- Settles O38: the gap's edge counts or starts the second frame, and keeps the buffer either way. -/
theorem gapThenSecondFrame : Obligations.GapThenSecondFrame := by
  intro s hrst hgap
  refine ⟨_, step_of_gap s hrst hgap, State.byte_congr (State.gapEdge_buf _ s.dropPins), State.gapEdge_pins _ _,
    fun ht => ?counts, fun ht => ?starts⟩
  case counts =>
    rw [State.gapEdge_of_tick_lt (s := s.dropPins) ht]
    exact ⟨State.tickOn_tick _, hgap, State.tickOn_sym _, State.tickOn_seg _, State.tickOn_line _⟩
  case starts =>
    rw [State.gapEdge_of_last (s := s.dropPins) ht]
    exact ⟨State.startFrame_phase _ _, State.startFrame_sym _ _, State.startFrame_seg _ _, State.startFrame_tick _ _,
      State.startFrame_line _ _, drivenLevel_start _⟩

/-- R44: without reset an edge outside IDLE keeps the buffer, in every state. -/
theorem exists_step_of_busy {s : State} (hbusy : s.phase ≠ .idle) (hrst : s.nextPins.rst = false) :
    ∃ t, step s = .next t ∧ t.buf = s.buf := by
  cases hphase : s.phase with
  | idle => exact absurd hphase hbusy
  | frame1 => exact ⟨_, step_of_frame s hrst (.inl hphase), State.frameEdge_buf _ s.dropPins⟩
  | gap => exact ⟨_, step_of_gap s hrst hphase, State.gapEdge_buf _ s.dropPins⟩
  | frame2 => exact ⟨_, step_of_frame s hrst (.inr hphase), State.frameEdge_buf _ s.dropPins⟩

/-- R34: the read-back depends on the buffer alone. -/
theorem State.rdData_congr {s t : State} (h : t.buf = s.buf) (a : RdAddr) : t.rdData a = s.rdData a := by
  simp only [State.rdData, State.byte_congr h]

/-- Settles O40: bytes, read-back and frame bits are all read from the buffer. -/
theorem bufferIsStableWhileBusy : Obligations.BufferIsStableWhileBusy := by
  intro s hbusy hrst
  obtain ⟨t, hstep, hbuf⟩ := exists_step_of_busy hbusy hrst
  exact ⟨t, hstep, State.byte_congr hbuf, State.rdData_congr hbuf, fun k => by rw [hbuf]⟩

/-- Settles O41: of what an edge can do to an idle block only an accepted SEND starts a frame. -/
theorem onlyAnAcceptedSendLeavesIdle : Obligations.OnlyAnAcceptedSendLeavesIdle := by
  intro s t hidle hstep hleft
  rw [step_eq_edge] at hstep
  obtain ⟨-, rfl⟩ | ⟨-, -, -, rfl⟩ | ⟨hrst, -, hvalid, rfl⟩ | ⟨-, hframe, -⟩ | ⟨-, hgap, -⟩ := edge_cases hstep
  · exact absurd (State.resetEdge_phase _ _) hleft
  · exact absurd hidle hleft
  · have hsend : s.nextPins.command = .send := by
      by_contra hne
      exact hleft ((execResult_samePosition hne s.dropPins).2.1.trans hidle)
    rw [hsend]
    exact ⟨State.accepts_of_idle hrst hidle hvalid, rfl, State.startFrame_phase _ _⟩
  · rw [State.dropPins_phase, hidle] at hframe
    simp at hframe
  · rw [State.dropPins_phase, hidle] at hgap
    cases hgap

/-- R105 to R107: an edge in a frame stays in its phase, or ends the frame after its last segment's cycles. -/
theorem frameEdge_phase_cases (P : Config.Params) (s : State) :
    (s.frameEdge P).phase = s.phase ∨
    ((s.frameEdge P).phase = s.endFrame.phase ∧ s.sym = lastSym ∧ s.seg = lastSeg ∧
      segCycles P s.seg ≤ s.tick + 1) := by
  obtain ⟨-, h⟩ | ⟨ht, hsym, hseg, h⟩ | ⟨-, -, h⟩ := frameEdge_cases P s <;> rw [h]
  · exact .inl s.tickOn_phase
  · exact .inr ⟨rfl, hsym, hseg, ht⟩
  · exact .inl s.nextSegment_phase

/-- R108: an edge in the gap stays there or starts the second frame. -/
theorem gapEdge_phase_cases (P : Config.Params) (s : State) :
    (s.gapEdge P).phase = s.phase ∨ (s.gapEdge P).phase = .frame2 := by
  obtain ⟨-, h⟩ | ⟨-, h⟩ := gapEdge_cases P s <;> rw [h]
  · exact .inl s.tickOn_phase
  · exact .inr (s.startFrame_phase .frame2)

/-- Settles O42: the phase after a frame's edge or a gap's edge. Under the invariant `tick` is below the segment's
cycles, so a segment that ends does so at its last one. -/
theorem onlyResetEndsASendEarly : Obligations.OnlyResetEndsASendEarly := by
  intro s t hrst hstep
  refine ⟨fun hphase => ?frame1, fun hphase => ?gap, fun hphase => ?frame2⟩
  case frame1 =>
    obtain rfl := Host.Outcome.next.inj (hstep.symm.trans (step_of_frame s hrst (.inl hphase)))
    refine (frameEdge_phase_cases _ s.dropPins).imp (fun h => h.trans hphase) fun ⟨h, _⟩ => ?_
    exact h.trans (State.endFrame_phase_of_frame1 hphase)
  case gap =>
    obtain rfl := Host.Outcome.next.inj (hstep.symm.trans (step_of_gap s hrst hphase))
    exact (gapEdge_phase_cases _ s.dropPins).imp_left (fun h => h.trans hphase)
  case frame2 =>
    obtain rfl := Host.Outcome.next.inj (hstep.symm.trans (step_of_frame s hrst (.inr hphase)))
    refine (frameEdge_phase_cases _ s.dropPins).imp (fun h => h.trans hphase) fun ⟨h, hsym, hseg, ht⟩ => ?_
    have hsym : s.sym = lastSym := hsym
    have hseg : s.seg = lastSeg := hseg
    have ht : segCycles Config.params s.seg ≤ s.tick + 1 := ht
    rw [hseg] at ht
    refine ⟨h.trans (State.endFrame_phase_of_frame2 hphase), (eq_lastSym_iff _).mp hsym, (eq_lastSeg_iff _).mp hseg, ht,
      fun hi => ?_⟩
    have hlt := (hi.onSchedule.frame (.inr hphase)).1
    rw [hseg] at hlt
    exact Nat.le_antisymm hlt ht

end Sys2Proof.Machine
end

section
/-! PROOF. The assembler's operand ranges (R54) and temperature literals (R55). -/

namespace Sys2Proof.Machine

/-- The refusal of a source command is that of its operands (R54). -/
theorem assembleCmd_of_problem {c : SourceCmd} {r : AsmReason} (h : c.problem = some r) : assembleCmd c = .error r := by
  rw [assembleCmd, h]

/-- An operand beyond its range is refused (R54). -/
theorem operandProblem_eq_some {bits n : Nat} (h : 2 ^ bits ≤ n) : operandProblem bits n = some .operandOutOfRange :=
  if_neg (Nat.not_lt.mpr h)

section
variable {x : TempLit}

/-- R55: two fractional digits are refused. -/
theorem TempLit.problem_of_two_le (h : 2 ≤ x.frac.length) : x.problem = some .tooManyFractionDigits := if_pos h

/-- R55: with at most one fractional digit, a digit, only the range can be refused. -/
theorem TempLit.problem_of_digit (hlen : x.frac.length ≤ 1) (hdigit : x.frac.headD 0 ≤ 9) :
    x.problem = if -32768 ≤ x.tenths ∧ x.tenths ≤ 32767 then none else some .operandOutOfRange := by
  have hrange : (-(2 : Int) ^ (Config.tempW - 1) ≤ x.tenths ∧ x.tenths < (2 : Int) ^ (Config.tempW - 1)) ↔
      (-32768 ≤ x.tenths ∧ x.tenths ≤ 32767) := by
    simp only [Config.tempW]
    omega
  rw [TempLit.problem, if_neg (by omega), if_neg (by omega)]
  simp only [hrange]

/-- R55: a literal in range assembles to SETTEMP with its value in tenths. -/
theorem assembleCmd_setTemp_of_inRange (hlen : x.frac.length ≤ 1) (hdigit : x.frac.headD 0 ≤ 9)
    (hlow : -32768 ≤ x.tenths) (hhigh : x.tenths ≤ 32767) :
    assembleCmd (.setTemp x) = .ok [.setTemp (BitVec.ofInt 16 x.tenths)] :=
  assembleCmd_of_problem_eq_none (c := .setTemp x)
    ((TempLit.problem_of_digit hlen hdigit).trans (if_pos ⟨hlow, hhigh⟩))

/-- R55: a literal whose value is out of range is refused. -/
theorem assembleCmd_setTemp_of_outOfRange (hlen : x.frac.length ≤ 1) (hdigit : x.frac.headD 0 ≤ 9)
    (hout : x.tenths < -32768 ∨ 32767 < x.tenths) : assembleCmd (.setTemp x) = .error .operandOutOfRange :=
  assembleCmd_of_problem (c := .setTemp x)
    ((TempLit.problem_of_digit hlen hdigit).trans (if_neg (by omega)))

end

/-- R50: a value in range is read back from its two's complement. -/
theorem toInt_ofInt_of_inRange {T : Int} (hlow : -32768 ≤ T) (hhigh : T ≤ 32767) : (BitVec.ofInt 16 T).toInt = T :=
  BitVec.toInt_ofInt_eq_self (by decide) hlow (by omega)

/-- Settles O51: the statement's T is the literal's value in tenths. -/
theorem temperatureLiteralsAreTenths : Obligations.TemperatureLiteralsAreTenths := by
  refine ⟨fun neg D F T hlen hdigit hT => ?_, fun neg D F hlen =>
    assembleCmd_of_problem (c := .setTemp ⟨neg, D, F⟩) (TempLit.problem_of_two_le hlen)⟩
  obtain rfl : T = TempLit.tenths ⟨neg, D, F⟩ := hT
  exact ⟨fun hlow hhigh =>
      ⟨_, assembleCmd_setTemp_of_inRange hlen hdigit hlow hhigh, toInt_ofInt_of_inRange hlow hhigh⟩,
    assembleCmd_setTemp_of_outOfRange hlen hdigit⟩

/-- R54: a word as a number, from its opcode and its operand as numbers. -/
theorem encode_toNat_eq_add {i : Instr} {k n : Nat} (hop : i.opcode.toNat = k) (hoperand : i.operand.toNat = n) :
    (encode i).toNat = k * 0x10000 + n := by
  rw [encode, Laws.WordLayout.word_toNat, hop, hoperand]

/-- The word of a one-byte command whose operand is in range. -/
theorem encode_toNat_of_byte {i : Instr} {k n : Nat} (hop : i.opcode.toNat = k)
    (hoperand : i.operand = (BitVec.ofNat 8 n).setWidth 16) (h : n ≤ 0xFF) : (encode i).toNat = k * 0x10000 + n := by
  refine encode_toNat_eq_add hop ?_
  rw [hoperand, BitVec.toNat_setWidth, BitVec.toNat_ofNat]
  omega

/-- R50, R55: a value's operand field is the value mod 0x10000. -/
theorem toNat_ofInt_word (T : Int) : ((BitVec.ofInt 16 T).toNat : Int) = T % 0x10000 := by
  rw [BitVec.toNat_ofInt]
  omega

/-- Settles O50: operands in range are in the word as they are, SETTEMP's in two's complement; others are refused. -/
theorem assemblerKeepsToTheOperandRanges : Obligations.AssemblerKeepsToTheOperandRanges := by
  have asm {c : SourceCmd} (h : c.problem = none) := assembleCmd_of_problem_eq_none h
  have ref {c : SourceCmd} (h : c.problem = some .operandOutOfRange) := assembleCmd_of_problem h
  have half {n : Nat} (h : n ≤ 0xFFFF) : operandProblem 16 n = none := operandProblem_eq_none (by omega)
  have byte {n : Nat} (h : n ≤ 0xFF) : operandProblem 8 n = none := operandProblem_eq_none (by omega)
  have wide {n : Nat} (h : 0xFFFF < n) : operandProblem 16 n = some .operandOutOfRange :=
    operandProblem_eq_some (by omega)
  have big {n : Nat} (h : 0xFF < n) : operandProblem 8 n = some .operandOutOfRange := operandProblem_eq_some (by omega)
  refine ⟨fun n h => ⟨_, asm (half h), ?type⟩,
    fun n h => ⟨.setChannel _, asm (byte h), encode_toNat_of_byte (k := 1) rfl rfl h⟩,
    fun n h => ⟨.setId _, asm (byte h), encode_toNat_of_byte (k := 2) rfl rfl h⟩,
    fun n h => ⟨.setBattery _, asm (byte h), encode_toNat_of_byte (k := 3) rfl rfl h⟩,
    fun neg D F T hlen hdigit hT => ?temp,
    fun n h => ⟨.setHumidity _, asm (byte h), encode_toNat_of_byte (k := 5) rfl rfl h⟩,
    ⟨_, rfl, by decide⟩, ⟨_, rfl, by decide⟩, fun n h => ref (wide h),
    fun n h => ⟨ref (big h), ref (big h), ref (big h), ref (big h)⟩⟩
  case type =>
    have hoperand : (Instr.setType (BitVec.ofNat 16 n)).operand.toNat = n :=
      (BitVec.toNat_ofNat n 16).trans (Nat.mod_eq_of_lt (by omega))
    exact (encode_toNat_eq_add (k := 0) rfl hoperand).trans n.zero_add
  case temp =>
    obtain rfl : T = TempLit.tenths ⟨neg, D, F⟩ := hT
    refine ⟨fun hlow hhigh => ⟨_, assembleCmd_setTemp_of_inRange hlen hdigit hlow hhigh, ?_⟩,
      assembleCmd_setTemp_of_outOfRange hlen hdigit⟩
    rw [encode_toNat_eq_add (k := 4) rfl rfl, Nat.cast_add, Instr.operand, toNat_ofInt_word]
    rfl

end Sys2Proof.Machine
end
